-- ==== Sys2Proof/Word.lean ====
section
/-! DEFINITION. The words of the machine: nibbles, bytes, in-page addresses and the (page, address) pair of a program counter. -/

namespace Sys2Proof

/-- A 4-bit value: `A`, `X`, `BM`, `BL`, a RAM cell, a port register (spec R5). -/
abbrev Nibble := BitVec 4

/-- An 8-bit value: a ROM byte, `SB`, the RAM pointer `B` (spec R5). -/
abbrev Byte := BitVec 8

/-- A 6-bit value: an address inside a ROM page, or the page number a long form computes before its range is checked
(spec R5, R84). -/
abbrev SixBits := BitVec 6

/-- A program counter value: "a (page, address) pair" (spec R29). -/
structure PC where
  page : Nibble
  addr : SixBits
  deriving DecidableEq, Repr

end Sys2Proof
end

