-- ==== Sys2Proof/Config.lean ====
section
/-! DEFINITION. The configuration of the machine (spec R6, R15, R224): plain data, carried in `State` and written by no step,
and the two parameters the spec leaves OPEN as constants with no body. -/

namespace Sys2Proof

/-- A memory of cells of `w` bits: (address, value) pairs in rising order of address, none listed that equals what an
unlisted address reads as, which is zero (`Machine.Mem.wf`). With `w = 8` this is a list of `Host.Cell`. -/
abbrev Mem (w : Nat) := List (Nat × BitVec w)

/-- One entry of the sample table: "(cycle-timestamp, input-level)" (spec R12, R201). -/
structure Sample where
  ts : Nat
  level : Nibble
  deriving DecidableEq, Repr

/-- What is fixed before reset is released (spec R6, R15, R224). -/
structure Config where
  /-- `ROM`: image byte `64 * p + a` is `ROM[p][a]` (spec R224); bytes the image does not reach read 0x00 (spec R51). -/
  rom : List Host.Cell
  /-- `SAMPLES`: `none` selects the toggle rule of port 1 (spec R6, R199). -/
  samples : Option (List Sample)
  /-- `SecretBit` as its 64 bits: bit `16 * (BM - 4) + BL` is `SecretBit(BM, BL)`. The numbering is the model's
  (DESIGN CHOICE, safe, log 5): the spec specifies no packing (spec R56, D9) and no instruction sees one. -/
  secret : BitVec 64
  /-- `P1_PRE_LEVEL`: what port 1 reads when no sample qualifies (spec R6, R200, D11). -/
  p1PreLevel : Nibble
  deriving DecidableEq, Repr

/-- The secret table of the machine that `State.reset` describes: OPEN in the spec (R56, D9), so no value (safe, log 5). -/
opaque Config.anySecret : BitVec 64

/-- The pre-sample level of port 1 at `State.reset`: OPEN in the spec (R200, D11), so no value (safe, log 6). -/
opaque Config.anyPreLevel : Nibble

/-- The configuration `State.reset` stands in: an image of no bytes, no sample table (DESIGN CHOICE, unsafe for a statement
about a run from reset, log 4), and the two open parameters. -/
def Config.initial : Config :=
  { rom := [], samples := none, secret := Config.anySecret, p1PreLevel := Config.anyPreLevel }

end Sys2Proof
end

