-- ==== Sys2Proof/Machine/State.lean ====
section
/-! DEFINITION. The state of the machine (spec R20 to R47), its faults and refusals, and the state after reset (spec R45). -/

namespace Sys2Proof.Machine

/-- The fatal faults of spec R180, with the recorded values. A `raise` writes one into `State.fault` (spec R10); the machine
then has no further step (spec R189), and `step` answers `Host.Outcome.fault` with it. -/
inductive Fault where
  /-- Raised by the step at decode for an undefined opcode byte, even under `SKIP` (spec R103, R181). From the source;
  under `SKIP` the spec's D14 (safe: the machine stops). -/
  | unknownOpcode (op : Byte) (at_ : PC)
  /-- Raised by `TRS` and `CALL` with 4 entries on the stack (spec R31, R182); records `FPC`. From the source (safe). -/
  | stackOverflow (at_ : PC)
  /-- Raised by `RTN` on an empty stack (spec R32, R182); records `FPC`. From the source (safe). -/
  | stackUnderflow (at_ : PC)
  /-- Raised by `LDA EXC EXCI EXCD ADD ADC TM RM` when `B >= 64` (spec R52); records `B`. The spec's D4 (safe). -/
  | ramRange (b : Byte)
  /-- Raised by `TL` and `CALL` when the target page is above 15 (spec R84); records page and address. The spec's D5 (safe). -/
  | romPage (tp ta : SixBits)
  /-- Raised by `TPB 3` (spec R170); records the index. The spec's D6 (safe). -/
  | portIndex (p : BitVec 2)
  deriving DecidableEq, Repr

/-- Why there is no step, or no machine to start. -/
inductive Refusal where
  /-- An instruction that has no meaning in this model yet; raised by an arm of `exec` only. No arm does (safe). -/
  | notModelled (mnemonic : String)
  /-- Raised by `step` when the host has ended the run: the machine takes a step only when "the host has not ended the run"
  (spec R100). Exact (safe). -/
  | runEnded
  /-- Raised by `launch` for a ROM image longer than 1024 bytes (spec N10, U18; safe). -/
  | imageTooLong
  /-- Raised by `launch` for a sample table that is not well formed: "refused at launch" (spec R201, D17; safe). -/
  | samplesIllFormed
  deriving DecidableEq, Repr

/-- The output events of spec R41 (shapes: the spec's D19). -/
inductive Event where
  /-- `OUTL` showed `v` on port 0. -/
  | outL (v : Nibble)
  /-- `OUT` with `BL` = 15 left the latch at `h`. -/
  | outHiz (h : Bool)
  /-- `OUT` with `BL` = 2 wrote `v` to port 2. -/
  | outPort (v : Nibble)
  /-- `OUT` with any other `BL`. -/
  | outOther (bl v : Nibble)
  /-- `TPB` tested port `p` and saw `v`. -/
  | portTest (p : BitVec 2) (v : Nibble)
  deriving DecidableEq, Repr

/-- One operator command at an observation point (spec R206). Arguments are naturals, so that a command out of range can be
given; it then changes nothing. -/
inductive HostAction where
  /-- `port <n> <hex>`. -/
  | port (n v : Nat)
  /-- `poke <addr-hex> <val-hex>`. -/
  | poke (addr val : Nat)
  /-- `skip`: toggle `SKIP`. -/
  | skip
  /-- `q`: end the run. -/
  | quit
  /-- `p`, `m`, `sp`: print; no effect on the machine. -/
  | look
  /-- `r`, `v`, `b`, `cb`, `mb`, `hiz`: the debugger's own state; no effect on the machine. -/
  | debugger
  deriving DecidableEq, Repr

/-- The complete state of the machine (spec R20), its configuration (spec R15), and two fields of the model's own, `host` and
`ended`, which hold the host's moves (spec R206) as plain data. -/
structure State where
  /-- `A` (R21). -/
  a : Nibble
  /-- `X` (R22). -/
  x : Nibble
  /-- `BM` (R23). -/
  bm : Nibble
  /-- `BL` (R24). -/
  bl : Nibble
  /-- `SB` (R26). -/
  sb : Byte
  /-- `C` (R27). -/
  c : Bool
  /-- `SKIP` (R28). -/
  skip : Bool
  /-- `PC` (R29). -/
  pc : PC
  /-- `FPC` (R30). -/
  fpc : PC
  /-- `STACK`, most recent first (R33). -/
  stack : List PC
  /-- `RAM`, 64 cells of 4 bits; an unlisted cell reads 0 (R34, R45). -/
  ram : Mem 4
  /-- `CYC` (R36). -/
  cyc : Nat
  /-- `PORT[0]` (R37). -/
  port0 : Nibble
  /-- `PORT[1]` (R37). -/
  port1 : Nibble
  /-- `PORT[2]` (R37). -/
  port2 : Nibble
  /-- `HIZ` (R38). -/
  hiz : Bool
  /-- `FAULT` (R39). -/
  fault : Option Fault
  /-- `EVENTS`, oldest first (R41). -/
  events : List Event
  /-- `ROM`, `SAMPLES`, `SecretBit`, `P1_PRE_LEVEL` (R15); no step writes it. -/
  cfg : Config
  /-- The host's actions, one list for each observation point still to come; an empty list is no host (R206, R208; log 3). -/
  host : List (List HostAction)
  /-- The host has ended the run (R100, R206; log 2). -/
  ended : Bool
  deriving DecidableEq, Repr

/-- What a meaning and a step answer. -/
abbrev Result := Host.Outcome State Fault Refusal

/-- The state after reset under a configuration: spec R45, and `FPC` (0, 0), for which R45 gives no value (DESIGN CHOICE,
unsafe, log 7). No host is attached (log 3). -/
def State.ofConfig (cfg : Config) : State where
  a := 0
  x := 0
  bm := 0
  bl := 0
  sb := 0
  c := false
  skip := false
  pc := ⟨0, 0⟩
  fpc := ⟨0, 0⟩
  stack := []
  ram := []
  cyc := 0
  port0 := 0
  port1 := 0
  port2 := 0
  hiz := false
  fault := none
  events := []
  cfg := cfg
  host := []
  ended := false

/-- The machine right after reset (spec R45, R220), with no program loaded (log 10). -/
def State.reset : State := State.ofConfig Config.initial

end Sys2Proof.Machine
end

