-- ==== Sys2Proof/Machine/Ops.lean ====
section
/-! DEFINITION. The named operations over memory, stack, ports and faults (spec R9, R10, R31, R32, R41, R51 to R54, R199, R200). -/

namespace Sys2Proof.Machine

/-! ### Memories as lists in one canonical form -/

/-- What an address holds; an unlisted address reads 0 (RAM: spec R45; ROM: spec R51). -/
def Mem.read {w : Nat} : Mem w → Nat → BitVec w
  | [], _ => 0#w
  | (b, v) :: rest, a => if b = a then v else Mem.read rest a

/-- No entry for `a` is left. -/
def Mem.erase {w : Nat} (m : Mem w) (a : Nat) : Mem w := m.filter (fun e => e.1 != a)

/-- A new entry at its place in rising order. -/
def Mem.insert {w : Nat} : Mem w → Nat → BitVec w → Mem w
  | [], a, v => [(a, v)]
  | (b, u) :: rest, a, v => if a < b then (a, v) :: (b, u) :: rest else (b, u) :: Mem.insert rest a v

/-- Write one cell; writing 0, which an unlisted address reads as, leaves no entry. -/
def Mem.write {w : Nat} (m : Mem w) (a : Nat) (v : BitVec w) : Mem w :=
  if v = 0#w then Mem.erase m a else Mem.insert (Mem.erase m a) a v

/-- Addresses from `lo` up strictly rise, stay below `size`, and no listed value is 0. -/
def Mem.wfFrom {w : Nat} (size : Nat) : Nat → Mem w → Bool
  | _, [] => true
  | lo, (a, v) :: rest => decide (lo ≤ a) && decide (a < size) && (v != 0#w) && Mem.wfFrom size (a + 1) rest

/-- The canonical form of a memory of `size` cells. -/
def Mem.wf {w : Nat} (size : Nat) (m : Mem w) : Bool := Mem.wfFrom size 0 m

/-- `RAM_CELLS` (spec R5). -/
def ramCells : Nat := 64

/-- `ROM_PAGES` x `ROM_PAGE_BYTES` (spec R5). -/
def romBytes : Nat := 1024

/-! ### Faults -/

/-- `raise` (spec R10, R188): a fault saves nothing, vectors nowhere and runs no handler; `FAULT` is set and everything else
stays. There is no return from it (spec R190). -/
def State.raise (s : State) (f : Fault) : State := { s with fault := some f }

/-- The end of an instruction: its own result, or, where it raised, the state it started from with `FAULT` set, since every
execution fault comes "before the instruction writes any state" (spec R183, R188). -/
def State.finish (s : State) (r : Except Fault State) : Result :=
  match r with
  | .ok t => .next t
  | .error f => .next (s.raise f)

/-! ### Program memory -/

/-- Image byte number `64 * p + a` (spec R224). -/
def romIndex (pc : PC) : Nat := 64 * pc.page.toNat + pc.addr.toNat

/-- `RomRead(p, a)` (spec R51): no side effect, never faults. -/
def State.romRead (s : State) (pc : PC) : Byte := Mem.read s.cfg.rom (romIndex pc)

/-- The advance past one fetched byte: modulo 64 within the page, page unchanged (spec R29; the spec's D2, log 12). -/
def advance (pc : PC) : PC := ⟨pc.page, BitVec.ofNat 6 ((pc.addr.toNat + 1) % 64)⟩

/-- `n` advances: past all bytes of an instruction of `n` bytes. -/
def advanceBy (pc : PC) : Nat → PC
  | 0 => pc
  | n + 1 => advanceBy (advance pc) n

/-! ### Data memory -/

/-- `MemRead(b, 4)` (spec R53): `RamRange` when `b >= 64` (the spec's D4, log 14). -/
def State.memRead (s : State) (b : Byte) : Except Fault Nibble :=
  if ramCells ≤ b.toNat then .error (.ramRange b) else .ok (Mem.read s.ram b.toNat)

/-- `MemWrite(b, 4, v)` (spec R54): `RamRange` when `b >= 64`; else one cell changes and nothing else. -/
def State.memWrite (s : State) (b : Byte) (v : Nibble) : Except Fault State :=
  if ramCells ≤ b.toNat then .error (.ramRange b) else .ok { s with ram := Mem.write s.ram b.toNat v }

/-! ### Call stack -/

/-- `STACK_DEPTH` (spec R5). -/
def stackDepth : Nat := 4

/-- `Push(v)` (spec R31): "pushing a 5th frame onto a stack already holding 4 entries is fatal". -/
def State.push (s : State) (v : PC) : Except Fault State :=
  if s.stack.length = stackDepth then .error (.stackOverflow s.fpc) else .ok { s with stack := v :: s.stack }

/-- `Pop()` (spec R32): the popped value and the state without it; "popping with an empty stack is fatal". -/
def State.pop (s : State) : Except Fault (PC × State) :=
  match s.stack with
  | [] => .error (.stackUnderflow s.fpc)
  | v :: rest => .ok (v, { s with stack := rest })

/-! ### Events and ports -/

/-- `Emit(e)` (spec R41): append, oldest first. -/
def State.emit (s : State) (e : Event) : State := { s with events := s.events ++ [e] }

/-- `SampleLevel(c)` (spec R200): the level of the last entry, in list order, whose timestamp does not exceed `c`, and `pre`
when there is none. -/
def sampleLevel (pre : Nibble) : List Sample → Nat → Nibble
  | [], _ => pre
  | e :: rest, c => sampleLevel (if e.ts ≤ c then e.level else pre) rest c

/-- The level `PortRead1` produces (spec R199): the sample at the cycle count, or the toggle of `PORT[1]` when no table is
supplied. -/
def State.port1Level (s : State) : Nibble :=
  match s.cfg.samples with
  | some table => sampleLevel s.cfg.p1PreLevel table s.cyc
  | none => if s.port1 = 0#4 then 1#4 else 0#4

/-- `PortRead1()` (spec R199): the level, stored in `PORT[1]` (the spec's D10, log 19). -/
def State.portRead1 (s : State) : Nibble × State :=
  (s.port1Level, { s with port1 := s.port1Level })

/-- What an outside observer sees on port 2: no number while high-impedance (spec R198, U5). -/
inductive Pin where
  | undriven
  | level (v : Nibble)
  deriving DecidableEq, Repr

/-- `Pin2()` (spec R198). -/
def State.pin2 (s : State) : Pin := if s.hiz then .undriven else .level s.port2

/-- `DIV = (CYC / 2) mod 32768` (spec R47): a view of `CYC`, not state. -/
def State.div (s : State) : Nat := s.cyc / 2 % 32768

end Sys2Proof.Machine
end

