-- ==== Sys2Proof/Machine/Flags.lean ====
section
/-! DEFINITION. The flag computations: exact sums, carry out, the skip rules, the steps of `BL` (spec R27, R28, R163). -/

namespace Sys2Proof.Machine

/-- The destination "gets the result modulo 16" (spec R163). -/
def narrow (n : Nat) : Nibble := BitVec.ofNat 4 (n % 16)

/-- "overflow" means the exact result was 16 or more (spec R163). -/
def overflows (n : Nat) : Bool := decide (16 ≤ n)

/-- `if cond: SKIP <- true` (spec R28). -/
def State.skipIf (s : State) (cond : Bool) : State := { s with skip := if cond then true else s.skip }

/-- `BL <- (BL + 1) mod 16`, `SKIP` on the wrap to 0 (spec R135, R154). -/
def State.incBl (s : State) : State :=
  { s with bl := narrow (s.bl.toNat + 1) }.skipIf (narrow (s.bl.toNat + 1) == 0#4)

/-- `BL <- (BL + 15) mod 16`, `SKIP` on the wrap to 15 (spec R136, R155). -/
def State.decBl (s : State) : State :=
  { s with bl := narrow (s.bl.toNat + 15) }.skipIf (narrow (s.bl.toNat + 15) == 15#4)

/-- The exact sum of `ADC`: `A + v + C` (spec R152). -/
def adcSum (a v : Nibble) (c : Bool) : Nat := a.toNat + v.toNat + c.toNat

end Sys2Proof.Machine
end

