-- ==== Sys2Proof/Machine/Operands.lean ====
section
/-! DEFINITION. The operand forms: the RAM pointer, the pointer's exclusive-or, the long target, the table addresses, the bit
selections (spec R25, R82, R84, R122, R133 to R141, R157, R159, R173, R174). -/

namespace Sys2Proof.Machine

/-- `(hi << 4) | lo`, the layout of `B` and `SB` (spec R25, R26). -/
def joinNibbles (hi lo : Nibble) : Byte := (hi.setWidth 8 <<< 4) ||| lo.setWidth 8

/-- `v[7:4]`. -/
def highNibble (v : Byte) : Nibble := (v >>> 4).setWidth 4

/-- `v[3:0]`. -/
def lowNibble (v : Byte) : Nibble := v.setWidth 4

/-- `B = (BM << 4) | BL`, the one RAM address there is (spec R25, section 2 of 42_load_exchange.md). -/
def State.b (s : State) : Byte := joinNibbles s.bm s.bl

/-- `BM <- BM ^ m` for a 2-bit immediate (spec R23, R133). -/
def State.xorBm (s : State) (m : BitVec 2) : State := { s with bm := s.bm ^^^ m.setWidth 4 }

/-- `t <- MemRead(B, 4); MemWrite(B, 4, A); A <- t`: the exchange of `EXC`, `EXCI`, `EXCD` (spec R134 to R136, R60). -/
def State.exchange (s : State) : Except Fault State := do
  let t ← s.memRead s.b
  let u ← s.memWrite s.b s.a
  return { u with a := t }

/-- The range check of `LongTarget` (spec R84): a page above 15 raises `RomPage` (the spec's D5, log 15). -/
def longTarget (tp ta : SixBits) : Except Fault PC :=
  if 15 < tp.toNat then .error (.romPage tp ta) else .ok ⟨tp.setWidth 4, ta⟩

/-- The entry point `(1, t << 1)` of `TRS` (spec R122). -/
def trsTarget (t : BitVec 5) : PC := ⟨1#4, t.setWidth 6 <<< 1⟩

/-- The table location of `PAT`: page 4, address `((X & 0b11) << 4) | A` (spec R173; bit order: the spec's D8, log 18). -/
def patLocation (x a : Nibble) : PC := ⟨4#4, ((x &&& 3#4).setWidth 6 <<< 4) ||| a.setWidth 6⟩

/-- `v[k] == 1` (spec R157). -/
def testBit (v : Nibble) (k : BitVec 2) : Bool := v.getLsbD k.toNat

/-- `v & ~(1 << k) & 0xF` (spec R159). -/
def clearBit (v : Nibble) (k : BitVec 2) : Nibble := v &&& ~~~(1#4 <<< k.toNat)

/-- `BM` selects the secret table: 4 to 7 (spec R23, R174). -/
def secretSelected (bm : Nibble) : Bool := decide (4 ≤ bm.toNat ∧ bm.toNat ≤ 7)

/-- `SecretBit(BM, BL)` for `BM` 4 to 7 (spec R56; the numbering of the 64 bits is the model's, log 5). -/
def secretBit (cfg : Config) (bm bl : Nibble) : Bool :=
  cfg.secret.getLsbD (16 * (bm.toNat - 4) + bl.toNat)

end Sys2Proof.Machine
end

