-- ==== Sys2Proof/Machine/ArithTest.lean ====
section
/-! DEFINITION. Arithmetic, tests, bit and carry operations, no operation (spec R150 to R163). -/

namespace Sys2Proof.Machine

/-- `ADX n` (spec R150): `C` is not read and not written. -/
def execAdx (n : Nibble) (s : State) : Result :=
  .next ({ s with a := narrow (s.a.toNat + n.toNat) }.skipIf (overflows (s.a.toNat + n.toNat)))

/-- `ADD` (spec R151): "no skip, no carry update". -/
def execAdd (s : State) : Result :=
  s.finish do
    let v ← s.memRead s.b
    return { s with a := narrow (s.a.toNat + v.toNat) }

/-- `ADC` (spec R152): `C` always written, `SKIP` set iff the new `C` is 1. -/
def execAdc (s : State) : Result :=
  s.finish do
    let v ← s.memRead s.b
    let sum := adcSum s.a v s.c
    return { s with a := narrow sum, c := overflows sum }.skipIf (overflows sum)

/-- `COMA` (spec R153). -/
def execComa (s : State) : Result := .next { s with a := ~~~s.a }

/-- `INCB` (spec R154; wrap direction: the spec's D22, log 26). -/
def execIncb (s : State) : Result := .next s.incBl

/-- `DECB` (spec R155; wrap direction: the spec's D22, log 26). -/
def execDecb (s : State) : Result := .next s.decBl

/-- `TC` (spec R156): "skip set if C". -/
def execTc (s : State) : Result := .next (s.skipIf s.c)

/-- `TM k` (spec R157). -/
def execTm (k : BitVec 2) (s : State) : Result :=
  s.finish do
    let v ← s.memRead s.b
    return s.skipIf (testBit v k)

/-- `TABL` (spec R158): "skip set if A == BL". -/
def execTabl (s : State) : Result := .next (s.skipIf (s.a == s.bl))

/-- `RM k` (spec R159). -/
def execRm (k : BitVec 2) (s : State) : Result :=
  s.finish do
    let v ← s.memRead s.b
    s.memWrite s.b (clearBit v k)

/-- `SC` (spec R160). -/
def execSc (s : State) : Result := .next { s with c := true }

/-- `RC` (spec R161). -/
def execRc (s : State) : Result := .next { s with c := false }

/-- `NOP` (spec R162): nothing; the step has advanced `PC` and `CYC`. -/
def execNop (s : State) : Result := .next s

end Sys2Proof.Machine
end

