-- ==== Sys2Proof/Machine/Control.lean ====
section
/-! DEFINITION. Control transfer: `TR`, `TL`, `TRS`, `CALL`, `RTN` (spec R120 to R126). On entry `PC` is the address of the next
sequential instruction (spec R108). -/

namespace Sys2Proof.Machine

/-- `TR a` (spec R120): "addr := opcode & 0x3F; page unchanged". -/
def execTr (a : SixBits) (s : State) : Result := .next { s with pc := ⟨s.pc.page, a⟩ }

/-- `TL p:a` (spec R121). -/
def execTl (p a : SixBits) (s : State) : Result :=
  s.finish do
    let target ← longTarget p a
    return { s with pc := target }

/-- `TRS t` (spec R122): "push current PC; page := 1; addr := (opcode&0x1F)<<1". -/
def execTrs (t : BitVec 5) (s : State) : Result :=
  s.finish do
    let u ← s.push s.pc
    return { u with pc := trsTarget t }

/-- `CALL p:a` (spec R123): the stack is checked first, then the target, and only then is anything written (spec C14, the
order of the two faults the spec's D27, log 28). -/
def execCall (p a : SixBits) (s : State) : Result :=
  s.finish do
    let u ← s.push s.pc
    let target ← longTarget p a
    return { u with pc := target }

/-- `RTN` (spec R124): "pop PC from stack"; no flag. -/
def execRtn (s : State) : Result :=
  s.finish do
    let (target, u) ← s.pop
    return { u with pc := target }

end Sys2Proof.Machine
end

