-- ==== Sys2Proof/Machine/LoadExchange.lean ====
section
/-! DEFINITION. Load, exchange and register moves (spec R130 to R141). The RAM address is `B` as it stands when the instruction
starts (spec R55); order: RAM access, `BL` step, `BM` exclusive-or (the spec's D26, log 26). -/

namespace Sys2Proof.Machine

/-- `LAX n` (spec R130). -/
def execLax (n : Nibble) (s : State) : Result := .next { s with a := n }

/-- `LBMX n` (spec R132). -/
def execLbmx (n : Nibble) (s : State) : Result := .next { s with bm := n }

/-- `LBLX n` (spec R131). -/
def execLblx (n : Nibble) (s : State) : Result := .next { s with bl := n }

/-- `LDA m` (spec R133). -/
def execLda (m : BitVec 2) (s : State) : Result :=
  s.finish do
    let v ← s.memRead s.b
    return { s with a := v }.xorBm m

/-- `EXC m` (spec R134). -/
def execExc (m : BitVec 2) (s : State) : Result :=
  s.finish do
    let t ← s.exchange
    return t.xorBm m

/-- `EXCI m` (spec R135). -/
def execExci (m : BitVec 2) (s : State) : Result :=
  s.finish do
    let t ← s.exchange
    return t.incBl.xorBm m

/-- `EXCD m` (spec R136). -/
def execExcd (m : BitVec 2) (s : State) : Result :=
  s.finish do
    let t ← s.exchange
    return t.decBl.xorBm m

/-- `EXAX` (spec R137). -/
def execExax (s : State) : Result := .next { s with a := s.x, x := s.a }

/-- `ATX` (spec R138). -/
def execAtx (s : State) : Result := .next { s with x := s.a }

/-- `EXBM` (spec R139). -/
def execExbm (s : State) : Result := .next { s with a := s.bm, bm := s.a }

/-- `EXBL` (spec R140): no `SKIP`, even when `BL` becomes 0 or 15. -/
def execExbl (s : State) : Result := .next { s with a := s.bl, bl := s.a }

/-- `EX` (spec R141): "swap B with shadow SB". -/
def execEx (s : State) : Result := .next { s with bm := highNibble s.sb, bl := lowNibble s.sb, sb := s.b }

end Sys2Proof.Machine
end

