-- ==== Sys2Proof/Machine/PortIo.lean ====
section
/-! DEFINITION. Port I/O, table read and secret lookup: `TPB`, `OUTL`, `OUT`, `PAT`, `DTA` (spec R170 to R174). -/

namespace Sys2Proof.Machine

/-- `TPB p` (spec R170): port 0 always skips, ports 1 and 2 skip when their value is not 0, index 3 raises `PortIndex` (the
spec's D6, log 16); `TPB 2` reads the register whatever `HIZ` is (the spec's D24, log 27). -/
def execTpb (p : BitVec 2) (s : State) : Result :=
  if p = 0#2 then .next ((s.skipIf true).emit (.portTest p s.port0))
  else if p = 1#2 then .next ((s.portRead1.2.skipIf (s.portRead1.1 != 0#4)).emit (.portTest p s.portRead1.1))
  else if p = 2#2 then .next ((s.skipIf (s.port2 != 0#4)).emit (.portTest p s.port2))
  else s.finish (.error (.portIndex p))

/-- `OUTL` (spec R171): shown outside, stored nowhere (the spec's D25, log 27). -/
def execOutl (s : State) : Result := .next (s.emit (.outL s.a))

/-- `OUT` (spec R172): `BL` = 15 the latch, `BL` = 2 port 2 (the spec's D1, C1, log 11), any other `BL` an event only (the
spec's D7, log 17). -/
def execOut (s : State) : Result :=
  if s.bl = 15#4 then .next ({ s with hiz := s.a == 0#4 }.emit (.outHiz (s.a == 0#4)))
  else if s.bl = 2#4 then .next ({ s with port2 := s.a }.emit (.outPort s.a))
  else .next (s.emit (.outOther s.bl s.a))

/-- `PAT x` (spec R173): the argument byte is ignored (spec R89, D15, log 21); a data read of page 4, not a jump. -/
def execPat (_x : Byte) (s : State) : Result :=
  .next { s with
    x := highNibble (s.romRead (patLocation s.x s.a))
    a := lowNibble (s.romRead (patLocation s.x s.a)) }

/-- `DTA x` (spec R174): the argument byte is ignored (spec R89, D15, log 21); `BM` outside 4 to 7 leaves `SKIP`. -/
def execDta (_x : Byte) (s : State) : Result :=
  if secretSelected s.bm then .next { s with skip := secretBit s.cfg s.bm s.bl } else .next s

end Sys2Proof.Machine
end

