-- ==== Sys2Proof/Syntax.lean ====
section
/-! DEFINITION. The instructions: one constructor per row of spec/opcode_table.json, in the table's order (spec R85). -/

namespace Sys2Proof

/-- The 35 instructions with their immediate fields (spec R81, R82, R85). Every field has the width the format gives it,
so no field value is out of range. The long forms carry the 6-bit page number of spec R84 and the 6-bit address; `PAT` and
`DTA` carry their ignored argument byte (spec R89), so that decoding loses no bit. -/
inductive Instr where
  /-- Short jump in the page (R120). -/
  | tr (a : SixBits)
  /-- Long jump (R121). -/
  | tl (p a : SixBits)
  /-- Short call to entry `t` of page 1 (R122). -/
  | trs (t : BitVec 5)
  /-- Long call (R123). -/
  | call (p a : SixBits)
  /-- Return (R124). -/
  | rtn
  /-- `A <- n` (R130). -/
  | lax (n : Nibble)
  /-- `BM <- n` (R132). -/
  | lbmx (n : Nibble)
  /-- `BL <- n` (R131). -/
  | lblx (n : Nibble)
  /-- Load `A` from RAM (R133). -/
  | lda (m : BitVec 2)
  /-- Exchange `A` with RAM (R134). -/
  | exc (m : BitVec 2)
  /-- Exchange and step `BL` up (R135). -/
  | exci (m : BitVec 2)
  /-- Exchange and step `BL` down (R136). -/
  | excd (m : BitVec 2)
  /-- Exchange `A`, `X` (R137). -/
  | exax
  /-- Copy `A` to `X` (R138). -/
  | atx
  /-- Exchange `A`, `BM` (R139). -/
  | exbm
  /-- Exchange `A`, `BL` (R140). -/
  | exbl
  /-- Exchange `B`, `SB` (R141). -/
  | ex
  /-- Add an immediate, skip on overflow (R150). -/
  | adx (n : Nibble)
  /-- Add RAM (R151). -/
  | add
  /-- Add RAM and carry (R152). -/
  | adc
  /-- Complement `A` (R153). -/
  | coma
  /-- Step `BL` up (R154). -/
  | incb
  /-- Step `BL` down (R155). -/
  | decb
  /-- Test carry (R156). -/
  | tc
  /-- Test a RAM bit (R157). -/
  | tm (k : BitVec 2)
  /-- Test `A = BL` (R158). -/
  | tabl
  /-- Test a port (R170). -/
  | tpb (p : BitVec 2)
  /-- Clear a RAM bit (R159). -/
  | rm (k : BitVec 2)
  /-- Set carry (R160). -/
  | sc
  /-- Clear carry (R161). -/
  | rc
  /-- Show `A` on port 0 (R171). -/
  | outl
  /-- Output by `BL` (R172). -/
  | out
  /-- Table read from ROM page 4 (R173). -/
  | pat (x : Byte)
  /-- Test a secret bit (R174). -/
  | dta (x : Byte)
  /-- No operation (R162). -/
  | nop
  deriving DecidableEq, Repr

end Sys2Proof
end

