-- ==== Sys2Proof/Machine/Dispatch.lean ====
section
/-! DEFINITION. `Execute(kind, op, arg)` (spec R108): one arm per instruction, in the order of the opcode table. -/

namespace Sys2Proof.Machine

/-- The meaning of each instruction, on a state whose `PC` and `CYC` are already past it (spec R108). -/
def exec (i : Instr) (s : State) : Host.Outcome State Fault Refusal :=
  match i with
  | .tr a => Sys2Proof.Machine.execTr a s
  | .tl p a => Sys2Proof.Machine.execTl p a s
  | .trs t => Sys2Proof.Machine.execTrs t s
  | .call p a => Sys2Proof.Machine.execCall p a s
  | .rtn => Sys2Proof.Machine.execRtn s
  | .lax n => Sys2Proof.Machine.execLax n s
  | .lbmx n => Sys2Proof.Machine.execLbmx n s
  | .lblx n => Sys2Proof.Machine.execLblx n s
  | .lda m => Sys2Proof.Machine.execLda m s
  | .exc m => Sys2Proof.Machine.execExc m s
  | .exci m => Sys2Proof.Machine.execExci m s
  | .excd m => Sys2Proof.Machine.execExcd m s
  | .exax => Sys2Proof.Machine.execExax s
  | .atx => Sys2Proof.Machine.execAtx s
  | .exbm => Sys2Proof.Machine.execExbm s
  | .exbl => Sys2Proof.Machine.execExbl s
  | .ex => Sys2Proof.Machine.execEx s
  | .adx n => Sys2Proof.Machine.execAdx n s
  | .add => Sys2Proof.Machine.execAdd s
  | .adc => Sys2Proof.Machine.execAdc s
  | .coma => Sys2Proof.Machine.execComa s
  | .incb => Sys2Proof.Machine.execIncb s
  | .decb => Sys2Proof.Machine.execDecb s
  | .tc => Sys2Proof.Machine.execTc s
  | .tm k => Sys2Proof.Machine.execTm k s
  | .tabl => Sys2Proof.Machine.execTabl s
  | .tpb p => Sys2Proof.Machine.execTpb p s
  | .rm k => Sys2Proof.Machine.execRm k s
  | .sc => Sys2Proof.Machine.execSc s
  | .rc => Sys2Proof.Machine.execRc s
  | .outl => Sys2Proof.Machine.execOutl s
  | .out => Sys2Proof.Machine.execOut s
  | .pat x => Sys2Proof.Machine.execPat x s
  | .dta x => Sys2Proof.Machine.execDta x s
  | .nop => Sys2Proof.Machine.execNop s

end Sys2Proof.Machine
end

