-- ==== Sys2Proof/WellFormed.lean ====
section
/-! DEFINITION. Which terms of `Instr` are instructions of the table. -/

namespace Sys2Proof

/-- The fields' widths are in their types, so one check is left: "`ADX` has operands 1 to 15 only", since byte 0x00 is `NOP`
(spec R83, R91). Long pages 16 to 63 and `TPB 3` are well formed: they decode and are settled at execution (spec R88). -/
def Instr.wellFormed : Instr → Bool
  | .adx n => n != 0#4
  | .tr _ | .tl _ _ | .trs _ | .call _ _ | .rtn | .lax _ | .lbmx _ | .lblx _ | .lda _ | .exc _ | .exci _ | .excd _
  | .exax | .atx | .exbm | .exbl | .ex | .add | .adc | .coma | .incb | .decb | .tc | .tm _ | .tabl | .tpb _ | .rm _
  | .sc | .rc | .outl | .out | .pat _ | .dta _ | .nop => true

end Sys2Proof
end

