-- ==== Sys2Proof/Decode.lean ====
section
/-! DEFINITION. Decoding and encoding (spec R80 to R92). `Decode` is "a total function over the 8-bit opcode space". -/

namespace Sys2Proof

/-- Why bytes are no instruction. -/
inductive DecodeError where
  /-- One of the 17 bytes no row covers (spec R87). -/
  | undefinedOpcode (op : Byte)
  /-- A two-byte instruction whose argument byte is missing from the list (a list only: the step always fetches it). -/
  | missingArgument (op : Byte)
  /-- No byte at all (a list only). -/
  | noBytes
  deriving DecidableEq, Repr

/-- A row of the opcode table: the opcode byte `op` belongs to it when `op &&& mask = bits`; `build op arg` is the
instruction. -/
structure OpcodeRow where
  mnemonic : String
  mask : Byte
  bits : Byte
  length : Nat
  build : Byte → Byte → Instr

/-- The low 4 bits of the opcode byte (format `I4`, spec R81). -/
def field4 (op : Byte) : Nibble := op.setWidth 4

/-- The low 2 bits of the opcode byte (format `I2`, spec R81). -/
def field2 (op : Byte) : BitVec 2 := op.setWidth 2

/-- The page number a long form computes: `((op & 0xF) << 2) | (arg >> 6)`, 6 bits (spec R84). -/
def longPage (op arg : Byte) : SixBits :=
  ((op &&& 0x0F#8).setWidth 6 <<< 2) ||| (arg >>> 6).setWidth 6

/-- The in-page address of a long form: `arg & 0x3F` (spec R84). -/
def longAddr (arg : Byte) : SixBits := arg.setWidth 6

/-- Control transfer rows (spec R85, rows 1 to 5). -/
def controlRows : List OpcodeRow :=
  [ ⟨"TR", 0xC0, 0x80, 1, fun op _ => .tr (op.setWidth 6)⟩,
    ⟨"TL", 0xF0, 0xE0, 2, fun op arg => .tl (longPage op arg) (longAddr arg)⟩,
    ⟨"TRS", 0xE0, 0xC0, 1, fun op _ => .trs (op.setWidth 5)⟩,
    ⟨"CALL", 0xF0, 0xF0, 2, fun op arg => .call (longPage op arg) (longAddr arg)⟩,
    ⟨"RTN", 0xFF, 0x7D, 1, fun _ _ => .rtn⟩ ]

/-- Load, exchange and register-move rows (spec R85, rows 6 to 17). -/
def loadRows : List OpcodeRow :=
  [ ⟨"LAX", 0xF0, 0x10, 1, fun op _ => .lax (field4 op)⟩,
    ⟨"LBMX", 0xF0, 0x30, 1, fun op _ => .lbmx (field4 op)⟩,
    ⟨"LBLX", 0xF0, 0x20, 1, fun op _ => .lblx (field4 op)⟩,
    ⟨"LDA", 0xFC, 0x50, 1, fun op _ => .lda (field2 op)⟩,
    ⟨"EXC", 0xFC, 0x54, 1, fun op _ => .exc (field2 op)⟩,
    ⟨"EXCI", 0xFC, 0x58, 1, fun op _ => .exci (field2 op)⟩,
    ⟨"EXCD", 0xFC, 0x5C, 1, fun op _ => .excd (field2 op)⟩,
    ⟨"EXAX", 0xFF, 0x64, 1, fun _ _ => .exax⟩,
    ⟨"ATX", 0xFF, 0x65, 1, fun _ _ => .atx⟩,
    ⟨"EXBM", 0xFF, 0x66, 1, fun _ _ => .exbm⟩,
    ⟨"EXBL", 0xFF, 0x67, 1, fun _ _ => .exbl⟩,
    ⟨"EX", 0xFF, 0x68, 1, fun _ _ => .ex⟩ ]

/-- Arithmetic, test and bit rows but `NOP` (spec R85, rows 18 to 26 and 28 to 30). -/
def arithRows : List OpcodeRow :=
  [ ⟨"ADX", 0xF0, 0x00, 1, fun op _ => .adx (field4 op)⟩,
    ⟨"ADD", 0xFF, 0x7A, 1, fun _ _ => .add⟩,
    ⟨"ADC", 0xFF, 0x7B, 1, fun _ _ => .adc⟩,
    ⟨"COMA", 0xFF, 0x79, 1, fun _ _ => .coma⟩,
    ⟨"INCB", 0xFF, 0x78, 1, fun _ _ => .incb⟩,
    ⟨"DECB", 0xFF, 0x7C, 1, fun _ _ => .decb⟩,
    ⟨"TC", 0xFF, 0x6E, 1, fun _ _ => .tc⟩,
    ⟨"TM", 0xFC, 0x48, 1, fun op _ => .tm (field2 op)⟩,
    ⟨"TABL", 0xFF, 0x6B, 1, fun _ _ => .tabl⟩,
    ⟨"RM", 0xFC, 0x40, 1, fun op _ => .rm (field2 op)⟩,
    ⟨"SC", 0xFF, 0x61, 1, fun _ _ => .sc⟩,
    ⟨"RC", 0xFF, 0x60, 1, fun _ _ => .rc⟩ ]

/-- Port, table and secret-lookup rows (spec R85, rows 27 and 31 to 34). -/
def portRows : List OpcodeRow :=
  [ ⟨"TPB", 0xFC, 0x4C, 1, fun op _ => .tpb (field2 op)⟩,
    ⟨"OUTL", 0xFF, 0x71, 1, fun _ _ => .outl⟩,
    ⟨"OUT", 0xFF, 0x75, 1, fun _ _ => .out⟩,
    ⟨"PAT", 0xFF, 0x6A, 2, fun _ arg => .pat arg⟩,
    ⟨"DTA", 0xFF, 0x69, 2, fun _ arg => .dta arg⟩ ]

/-- The `NOP` row (spec R85, row 35). -/
def nopRow : OpcodeRow := ⟨"NOP", 0xFF, 0x00, 1, fun _ _ => .nop⟩

/-- The opcode table in search order: `NOP` first, because "NOP wins for exact byte 0x00" over the `ADX` range (spec R83);
no other two rows meet. -/
def opcodeTable : List OpcodeRow :=
  nopRow :: (controlRows ++ loadRows ++ arithRows ++ portRows)

/-- `op & mask == match` (spec R85). -/
def OpcodeRow.covers (r : OpcodeRow) (op : Byte) : Bool := op &&& r.mask == r.bits

/-- The row an opcode byte belongs to; none for the 17 undefined bytes (spec R87). -/
def rowOf (op : Byte) : Option OpcodeRow := opcodeTable.find? (·.covers op)

/-- How many bytes the instruction has, from the opcode byte alone; none for an undefined byte (spec R80). -/
def opcodeLength (op : Byte) : Option Nat := (rowOf op).map (·.length)

/-- `Decode` with the argument byte at hand; a one-byte instruction does not look at it (spec R80, R83, R85). -/
def decodeOp (op arg : Byte) : Option Instr := (rowOf op).map (·.build op arg)

/-- The instruction of a row whose opcode byte `op` is taken from the list already, and the rest of the list. -/
def OpcodeRow.take (r : OpcodeRow) (op : Byte) (rest : List Byte) : Except DecodeError (Instr × List Byte) :=
  if r.length = 2 then
    match rest with
    | [] => .error (.missingArgument op)
    | arg :: more => .ok (r.build op arg, more)
  else .ok (r.build op 0, rest)

/-- Decoding on any list of bytes: the instruction and the rest, or the named reason there is none. -/
def decode : List Byte → Except DecodeError (Instr × List Byte)
  | [] => .error .noBytes
  | op :: rest =>
    match rowOf op with
    | none => .error (.undefinedOpcode op)
    | some r => r.take op rest

/-- The one byte of an instruction with an `I4` field: `match | field` (spec R92). -/
def byteWith4 (bits : Byte) (n : Nibble) : List Byte := [bits ||| n.setWidth 8]

/-- The one byte of an instruction with an `I2` field: `match | field` (spec R92). -/
def byteWith2 (bits : Byte) (m : BitVec 2) : List Byte := [bits ||| m.setWidth 8]

/-- The two bytes of a long form: `op = base | (p >> 2)`, `arg = ((p & 3) << 6) | a` (spec R90, R92). -/
def longBytes (base : Byte) (p a : SixBits) : List Byte :=
  [base ||| (p >>> 2).setWidth 8, (p.setWidth 8 <<< 6) ||| a.setWidth 8]

/-- `Encode`, the inverse of decode (spec R92); the opcode byte first (spec R58). -/
def encode : Instr → List Byte
  | .tr a => [0x80#8 ||| a.setWidth 8]
  | .tl p a => longBytes 0xE0#8 p a
  | .trs t => [0xC0#8 ||| t.setWidth 8]
  | .call p a => longBytes 0xF0#8 p a
  | .rtn => [0x7D#8]
  | .lax n => byteWith4 0x10#8 n
  | .lbmx n => byteWith4 0x30#8 n
  | .lblx n => byteWith4 0x20#8 n
  | .lda m => byteWith2 0x50#8 m
  | .exc m => byteWith2 0x54#8 m
  | .exci m => byteWith2 0x58#8 m
  | .excd m => byteWith2 0x5C#8 m
  | .exax => [0x64#8]
  | .atx => [0x65#8]
  | .exbm => [0x66#8]
  | .exbl => [0x67#8]
  | .ex => [0x68#8]
  | .adx n => byteWith4 0x00#8 n
  | .add => [0x7A#8]
  | .adc => [0x7B#8]
  | .coma => [0x79#8]
  | .incb => [0x78#8]
  | .decb => [0x7C#8]
  | .tc => [0x6E#8]
  | .tm k => byteWith2 0x48#8 k
  | .tabl => [0x6B#8]
  | .tpb p => byteWith2 0x4C#8 p
  | .rm k => byteWith2 0x40#8 k
  | .sc => [0x61#8]
  | .rc => [0x60#8]
  | .outl => [0x71#8]
  | .out => [0x75#8]
  | .pat x => [0x6A#8, x]
  | .dta x => [0x69#8, x]
  | .nop => [0x00#8]

/-- The operands of an instruction in the spec's own syntax, in decimal (spec R90, D16): a page and an address for the long
forms, one value for every other form that has a field. -/
def Instr.operandText : Instr → String
  | .tl p a | .call p a => " " ++ toString p.toNat ++ ":" ++ toString a.toNat
  | .tr a => " " ++ toString a.toNat
  | .trs t => " " ++ toString t.toNat
  | .lax n | .lbmx n | .lblx n | .adx n => " " ++ toString n.toNat
  | .lda m | .exc m | .exci m | .excd m | .tm m | .tpb m | .rm m => " " ++ toString m.toNat
  | .pat x | .dta x => " " ++ toString x.toNat
  | .rtn | .exax | .atx | .exbm | .exbl | .ex | .add | .adc | .coma | .incb | .decb | .tc | .tabl | .sc | .rc | .outl | .out
  | .nop => ""

/-- An instruction in the spec's own syntax: the mnemonic of its row and its operands (spec R90, D16). No step reads it. -/
def Instr.text (i : Instr) : String :=
  match (encode i).head?.bind rowOf with
  | some r => r.mnemonic ++ i.operandText
  | none => ""

/-- The first byte of a table word numbered as spec/opcode_table.json numbers bits (bits 7..0), of an instruction of which
the table gives `nbits` bits. -/
def tableByte0 (nbits w : Nat) : Byte := BitVec.ofNat 8 (w % 2 ^ nbits)

/-- The second byte of a table word (bits 15..8); bits the table does not give are 0. -/
def tableByte1 (nbits w : Nat) : Byte := BitVec.ofNat 8 (w % 2 ^ nbits / 256)

/-- The instruction the decoder reads from a table word, laid out opcode byte first. -/
def decodeTableWord (nbits w : Nat) : Option Instr :=
  match decode [tableByte0 nbits w, tableByte1 nbits w] with
  | .ok (i, _) => some i
  | .error _ => none

end Sys2Proof
end

