-- ==== Sys2Proof/Machine/Fetch.lean ====
section
/-! DEFINITION. Parts 1 to 3, 5 and the skip gate of a step (spec R100 to R107): capture, fetch, classify, count, suppress. -/

namespace Sys2Proof.Machine

/-- Part 1: `FPC <- PC` (spec R101). -/
def State.capture (s : State) : State := { s with fpc := s.pc }

/-- The advance past one fetched byte (spec R102, R104). -/
def State.advancePc (s : State) : State := { s with pc := advance s.pc }

/-- What parts 2 and 3 give. -/
inductive Fetched where
  /-- An undefined opcode byte, and the state with `PC` past it (spec R103, R113). -/
  | undefinedByte (op : Byte) (t : State)
  /-- An instruction, its opcode and argument bytes (`arg` = 0x00 for one byte, spec R104), its length, and the state with
  `PC` past all its bytes. -/
  | instruction (i : Instr) (op arg : Byte) (nbytes : Nat) (t : State)
  deriving DecidableEq, Repr

/-- Parts 2, 3a, 3b (spec R102 to R104): the argument of a two-byte instruction is fetched whether or not it will be
suppressed. -/
def State.fetch (s : State) : Fetched :=
  match rowOf (s.romRead s.pc) with
  | none => .undefinedByte (s.romRead s.pc) s.advancePc
  | some row =>
    if row.length = 2 then
      .instruction (row.build (s.romRead s.pc) (s.romRead (advance s.pc))) (s.romRead s.pc) (s.romRead (advance s.pc)) 2
        s.advancePc.advancePc
    else .instruction (row.build (s.romRead s.pc) 0) (s.romRead s.pc) 0 1 s.advancePc

/-- Part 5 (spec R106): `CYC <- CYC + nbytes`, before execution (spec C2). -/
def State.count (s : State) (nbytes : Nat) : State := { s with cyc := s.cyc + nbytes }

/-- Part 6a for a set `SKIP` (spec R107): "clear it and do not execute". -/
def State.suppress (s : State) : State := { s with skip := false }

end Sys2Proof.Machine
end

