-- ==== Sys2Proof/Machine/HostIf.lean ====
section
/-! DEFINITION. The host at the observation point: what it is shown, what it may do, when its breakpoints match (spec R105, R205
to R209), and the reset input and the launch (spec R201, R220, R224, R226). -/

namespace Sys2Proof.Machine

/-- What the observation interface shows once per step (spec R14, R105). -/
structure Observation where
  op : Byte
  arg : Byte
  fpc : PC
  deriving DecidableEq, Repr

/-- The effect of one host action but `q` (spec R206); an argument out of range leaves the state unchanged. -/
def State.hostAct (s : State) : HostAction → State
  | .port n v =>
    if 16 ≤ v then s
    else if n = 0 then { s with port0 := BitVec.ofNat 4 v }
    else if n = 1 then { s with port1 := BitVec.ofNat 4 v }
    else if n = 2 then { s with port2 := BitVec.ofNat 4 v }
    else s
  | .poke addr val =>
    if addr < ramCells ∧ val < 16 then { s with ram := Mem.write s.ram addr (BitVec.ofNat 4 val) } else s
  | .skip => { s with skip := !s.skip }
  | .quit => { s with ended := true }
  | .look => s
  | .debugger => s

/-- The actions of one observation point, in their order; nothing follows the end of the run (spec R206, log 23). -/
def State.hostActs (s : State) : List HostAction → State
  | [] => s
  | .quit :: _ => s.hostAct .quit
  | act :: rest => (s.hostAct act).hostActs rest

/-- The observation point (spec R105): the host's next list of actions is taken and applied; an empty `host` is no host
(spec R208). -/
def State.observe (s : State) : State :=
  match s.host with
  | [] => s
  | acts :: later => { s with host := later }.hostActs acts

/-- A debugger breakpoint (spec R207). No rule bounds the addresses of a memory range: `ramRange` takes any two bytes, so it can
match a `B` of 64 and more, and a range whose low end is above its high end never matches (DESIGN CHOICE, log 29). -/
inductive Breakpoint where
  | atPc (pc : PC)
  | ramRange (lo hi : Byte)
  | hiz
  deriving DecidableEq, Repr

/-- The RAM-touching opcode groups (spec R55). -/
def touchesRam : Instr → Bool
  | .lda _ | .exc _ | .exci _ | .excd _ | .add | .adc | .tm _ | .rm _ => true
  | .tr _ | .tl _ _ | .trs _ | .call _ _ | .rtn | .lax _ | .lbmx _ | .lblx _ | .exax | .atx | .exbm | .exbl | .ex
  | .adx _ | .coma | .incb | .decb | .tc | .tabl | .tpb _ | .sc | .rc | .outl | .out | .pat _ | .dta _ | .nop => false

/-- Whether a breakpoint matches at an observation point, where the state is `s` and `i` is the decoded instruction (spec
R207). It changes no machine state. -/
def Breakpoint.hits (s : State) (i : Instr) : Breakpoint → Bool
  | .atPc pc => s.fpc == pc
  | .ramRange lo hi => touchesRam i && decide (lo.toNat ≤ s.b.toNat ∧ s.b.toNat ≤ hi.toNat)
  | .hiz => i == .out && s.bl == 15#4

/-- The `reset` input (spec R14, R189, R220): the state of spec R45 under the same configuration; host moves not yet made
are dropped (log 23). -/
def State.resetPulse (s : State) : State := State.ofConfig s.cfg

/-- Whether timestamps are in non-decreasing list order from `lo` on (spec R201). -/
def samplesRise : Nat → List Sample → Bool
  | _, [] => true
  | lo, e :: rest => decide (lo ≤ e.ts) && samplesRise e.ts rest

/-- `SAMPLE_MAX` (spec R5). -/
def sampleMax : Nat := 100

/-- Well-formedness of `SAMPLES` (spec R201, D17); levels are 0 to 15 by their type. -/
def samplesWf : Option (List Sample) → Bool
  | none => true
  | some table => decide (table.length ≤ sampleMax) && samplesRise 0 table

/-- The ROM of an image from image byte `n` on: bytes past its end are not listed and read 0x00 (spec R51, R224). -/
def imageCells : Nat → List Byte → Mem 8
  | _, [] => []
  | n, b :: rest => if b = 0#8 then imageCells (n + 1) rest else (n, b) :: imageCells (n + 1) rest

/-- Launch (spec R226): load the configuration, then reset. An image longer than 1024 bytes (spec U18) and a sample table
that is not well formed (spec R201) are refused (log 22). -/
def launch (image : List Byte) (samples : Option (List Sample)) (secret : BitVec 64) (pre : Nibble) : Result :=
  if romBytes < image.length then .refused .imageTooLong
  else if samplesWf samples then
    .next (State.ofConfig { rom := imageCells 0 image, samples := samples, secret := secret, p1PreLevel := pre })
  else .refused .samplesIllFormed

end Sys2Proof.Machine
end

