-- ==== Sys2Proof/Machine/Step.lean ====
section
/-! DEFINITION. One step of the machine (spec R109), and placing an instruction where it is fetched next. -/

namespace Sys2Proof.Machine

/-- Parts 4 to 6 of a step, once the instruction `i` of `nbytes` bytes is fetched and decoded (spec R105 to R108): the
observation point, where the host may end the run; the cycle count; the skip gate; execution. -/
def State.runFetched (s : State) (i : Instr) (nbytes : Nat) : Result :=
  if s.observe.ended then .next s.observe
  else if s.observe.skip then .next (s.observe.count nbytes).suppress
  else exec i (s.observe.count nbytes)

/-- The whole step (spec R109). A machine with `FAULT` set has no step (spec R100, R189; log 1), nor has one whose run the host
has ended (spec R100; log 2). -/
def step (s : State) : Host.Outcome State Fault Refusal :=
  match s.fault with
  | some f => .fault f
  | none =>
    if s.ended then .refused .runEnded
    else
      match s.capture.fetch with
      | .undefinedByte op t => .next (t.raise (.unknownOpcode op t.fpc))
      | .instruction i _ _ nbytes t => t.runFetched i nbytes

/-- What the step shows at its observation point, if it reaches one (spec R105): also for an instruction it then
suppresses. -/
def observation (s : State) : Option Observation :=
  if s.fault.isSome || s.ended then none
  else
    match s.capture.fetch with
    | .undefinedByte _ _ => none
    | .instruction _ op arg _ t => some ⟨op, arg, t.fpc⟩

/-- The instruction of a table word stored in ROM where the next step fetches, opcode byte first; bits the table does not give
are 0. Only ROM changes: it stands for loading a program from outside (spec R224; log 10). -/
def State.withFetchWord (s : State) (nbits w : Nat) : State :=
  { s with cfg := { s.cfg with
      rom := Mem.write (Mem.write s.cfg.rom (romIndex s.pc) (tableByte0 nbits w)) (romIndex (advance s.pc)) (tableByte1 nbits w) } }

end Sys2Proof.Machine
end

