-- ==== Sys2Proof/Safety.lean ====
section
/-! DEFINITION. What claims speak of: a safe state, the invariant of the machine, when an instruction faults (spec R180), and which
state each instruction reads and writes (spec R44). -/

namespace Sys2Proof.Safety

open Sys2Proof.Machine

/-- "no fault recorded" (spec R189). -/
def noFault (s : State) : Prop := s.fault = none

/-- The machine can take a step (spec R100). -/
def running (s : State) : Prop := s.fault = none ∧ s.ended = false

/-- `k` steps, stopping at the first that answers no next state. -/
def run : Nat → State → Result
  | 0, s => .next s
  | k + 1, s =>
    match step s with
    | .next t => run k t
    | .fault f => .fault f
    | .refused r => .refused r

/-- What holds of every state a run can reach: the stack's depth (spec R33), the canonical form of the two memories, and the
sample table's form (spec R201). Register widths (spec R40) hold by type. -/
def Inv (s : State) : Prop :=
  s.stack.length ≤ stackDepth ∧ Mem.wf ramCells s.ram = true ∧ Mem.wf romBytes s.cfg.rom = true
    ∧ samplesWf s.cfg.samples = true

/-- A RAM instruction faults when `BM` is 4 or more (spec R52, R180 row 4). -/
def ramFault (s : State) : Option Fault := if 4 ≤ s.bm.toNat then some (.ramRange s.b) else none

/-- A long form faults when its page is 16 or more (spec R84, R180 row 5). -/
def pageFault (p a : SixBits) : Option Fault := if 16 ≤ p.toNat then some (.romPage p a) else none

/-- A push faults with 4 entries saved (spec R31, R180 row 2). -/
def pushFault (s : State) : Option Fault := if s.stack.length = 4 then some (.stackOverflow s.fpc) else none

/-- Spec R180, read per instruction: the fault its execution raises in a state, if any. Of the two faults of `CALL` the stack's
comes first (spec R187). -/
def faultOf (s : State) : Instr → Option Fault
  | .tl p a => pageFault p a
  | .trs _ => pushFault s
  | .call p a => match pushFault s with
    | some f => some f
    | none => pageFault p a
  | .rtn => if s.stack = [] then some (.stackUnderflow s.fpc) else none
  | .lda _ | .exc _ | .exci _ | .excd _ | .add | .adc | .tm _ | .rm _ => ramFault s
  | .tpb p => if p = 3 then some (.portIndex p) else none
  | .tr _ | .lax _ | .lbmx _ | .lblx _ | .exax | .atx | .exbm | .exbl | .ex | .adx _ | .coma | .incb | .decb | .tc | .tabl
  | .sc | .rc | .outl | .out | .pat _ | .dta _ | .nop => none

/-- The instructions that may set `SKIP` (spec R28; the `s` column of R44). -/
def setsSkip : Instr → Bool
  | .adx _ | .adc | .exci _ | .excd _ | .incb | .decb | .tc | .tm _ | .tabl | .tpb _ | .dta _ => true
  | .tr _ | .tl _ _ | .trs _ | .call _ _ | .rtn | .lax _ | .lbmx _ | .lblx _ | .lda _ | .exc _ | .exax | .atx | .exbm | .exbl
  | .ex | .add | .coma | .rm _ | .sc | .rc | .outl | .out | .pat _ | .nop => false

/-- The pieces of state of spec R20, the configuration, and the model's own two fields. -/
inductive Field where
  | a | x | bm | bl | sb | c | skip | pc | fpc | stack | ram | cyc | port0 | port1 | port2 | hiz | fault | events | cfg | host
  | ended
  deriving DecidableEq, Repr

/-- Two states hold the same in one piece of state. -/
def agree (s t : State) : Field → Prop
  | .a => s.a = t.a
  | .x => s.x = t.x
  | .bm => s.bm = t.bm
  | .bl => s.bl = t.bl
  | .sb => s.sb = t.sb
  | .c => s.c = t.c
  | .skip => s.skip = t.skip
  | .pc => s.pc = t.pc
  | .fpc => s.fpc = t.fpc
  | .stack => s.stack = t.stack
  | .ram => s.ram = t.ram
  | .cyc => s.cyc = t.cyc
  | .port0 => s.port0 = t.port0
  | .port1 => s.port1 = t.port1
  | .port2 => s.port2 = t.port2
  | .hiz => s.hiz = t.hiz
  | .fault => s.fault = t.fault
  | .events => s.events = t.events
  | .cfg => s.cfg = t.cfg
  | .host => s.host = t.host
  | .ended => s.ended = t.ended

/-- The `w` and `s` entries of spec R44. -/
def writes : Instr → List Field
  | .tr _ | .tl _ _ => [.pc]
  | .trs _ | .call _ _ | .rtn => [.pc, .stack]
  | .lax _ => [.a]
  | .lbmx _ => [.bm]
  | .lblx _ => [.bl]
  | .lda _ => [.a, .bm]
  | .exc _ => [.a, .bm, .ram]
  | .exci _ | .excd _ => [.a, .bm, .bl, .skip, .ram]
  | .exax => [.a, .x]
  | .atx => [.x]
  | .exbm => [.a, .bm]
  | .exbl => [.a, .bl]
  | .ex => [.bm, .bl, .sb]
  | .adx _ => [.a, .skip]
  | .add | .coma => [.a]
  | .adc => [.a, .c, .skip]
  | .incb | .decb => [.bl, .skip]
  | .tc | .tm _ | .tabl | .dta _ => [.skip]
  | .tpb _ => [.skip, .port1, .events]
  | .rm _ => [.ram]
  | .sc | .rc => [.c]
  | .outl => [.events]
  | .out => [.hiz, .port2, .events]
  | .pat _ => [.a, .x]
  | .nop => []

/-- The `r` entries of spec R44, with `PC` for the instructions that keep its page or save it, `STACK` for those that look
at its depth, and the configuration for `TPB`, `PAT` and `DTA`. -/
def reads : Instr → List Field
  | .tr _ => [.pc]
  | .tl _ _ | .lax _ | .lbmx _ | .lblx _ | .sc | .rc | .nop => []
  | .trs _ | .call _ _ => [.pc, .stack]
  | .rtn => [.stack]
  | .lda _ | .tm _ | .rm _ => [.bm, .bl, .ram]
  | .exc _ | .exci _ | .excd _ | .add => [.a, .bm, .bl, .ram]
  | .exax => [.a, .x]
  | .atx | .adx _ | .coma | .outl => [.a]
  | .exbm => [.a, .bm]
  | .exbl | .tabl | .out => [.a, .bl]
  | .ex => [.bm, .bl, .sb]
  | .adc => [.a, .bm, .bl, .c, .ram]
  | .incb | .decb => [.bl]
  | .tc => [.c]
  | .tpb _ => [.port0, .port1, .port2, .cyc, .cfg]
  | .pat _ => [.a, .x, .cfg]
  | .dta _ => [.bm, .bl, .cfg]

/-- The instruction the next step fetches, and its argument's place: the two bytes at `PC`, decoded (spec R102 to R104). -/
def fetches (s : State) (i : Instr) : Prop :=
  decodeOp (s.romRead s.pc) (s.romRead (advance s.pc)) = some i

/-- How many bytes an instruction has: 2 for `TL`, `CALL`, `DTA`, `PAT`, 1 for every other (spec R80, R240). -/
def bytesOf : Instr → Nat
  | .tl _ _ | .call _ _ | .pat _ | .dta _ => 2
  | .tr _ | .trs _ | .rtn | .lax _ | .lbmx _ | .lblx _ | .lda _ | .exc _ | .exci _ | .excd _ | .exax | .atx | .exbm | .exbl
  | .ex | .adx _ | .add | .adc | .coma | .incb | .decb | .tc | .tm _ | .tabl | .tpb _ | .rm _ | .sc | .rc | .outl | .out
  | .nop => 1

end Sys2Proof.Safety
end

