-- ==== Sys2Proof/Certificates/Slice0/Obligations.lean ====
section
/-! DEFINITION. The statements about the machine, each with the rules or sections of spec/ it formalises. -/

open Sys2Proof Sys2Proof.Machine Sys2Proof.Safety

/-! ### Encoding -/

/-- 30_encoding.md sections 2 and 3: decoding the encoding of a well-formed instruction gives it back, whatever bytes
follow. -/
def Obligations.DecodeOfEncodeIsIdentity : Prop :=
  ∀ (i : Instr) (rest : List Byte), i.wellFormed = true → decode (encode i ++ rest) = .ok (i, rest)

/-- 30_encoding.md sections 2 and 3: whatever decodes is well formed, and encoding it gives the bytes back. -/
def Obligations.EncodeOfDecodeIsIdentity : Prop :=
  ∀ (bytes : List Byte) (i : Instr) (rest : List Byte), decode bytes = .ok (i, rest) →
    i.wellFormed = true ∧ encode i ++ rest = bytes

/-- 30_encoding.md section 3: an opcode byte is refused by name exactly when it is one of the 17 undefined bytes. -/
def Obligations.SeventeenBytesAreUndefined : Prop :=
  ∀ (op : Byte) (rest : List Byte), decode (op :: rest) = .error (.undefinedOpcode op) ↔
    op ∈ [0x44#8, 0x45#8, 0x46#8, 0x47#8, 0x62#8, 0x63#8, 0x6C#8, 0x6D#8, 0x6F#8, 0x70#8, 0x72#8, 0x73#8, 0x74#8, 0x76#8,
      0x77#8, 0x7E#8, 0x7F#8]

/-- 30_encoding.md section 2: the target of a long form, in numbers: page = `(op & 0xF) * 4 + arg / 64`, address =
`arg mod 64`, with the opcode's bit 4 choosing `TL` or `CALL`. -/
def Obligations.LongFormsDecodeTheirTarget : Prop :=
  ∀ (op arg : Byte), 0xE0 ≤ op.toNat →
    ∃ p a : SixBits, p.toNat = op.toNat % 16 * 4 + arg.toNat / 64 ∧ a.toNat = arg.toNat % 64 ∧
      decodeOp op arg = some (if op.toNat < 0xF0 then .tl p a else .call p a)

/-- 30_encoding.md section 3 and 95_test_vectors.md section 3: for each of the 35 rows of the opcode
table words written out from its encoding, where the row has a field both ends of the field's range among them (which of 0x64 to
0x68 is which: the spec's D21, log 25; the argument byte of `PAT` and `DTA` is kept and not used: D15, log 21). -/
def Obligations.SpecEncodingVectorsDecode : Prop :=
  (decode [0x80#8] = .ok (.tr 0, []) ∧ decode [0xBF#8] = .ok (.tr 0x3F, []) ∧
    decode [0xE0#8, 0x00#8] = .ok (.tl 0 0, []) ∧ decode [0xEF#8, 0xFF#8] = .ok (.tl 63 0x3F, []) ∧
    decode [0xE3#8, 0xFF#8] = .ok (.tl 15 0x3F, []) ∧ decode [0xE4#8, 0x00#8] = .ok (.tl 16 0, []) ∧
    decode [0xC0#8] = .ok (.trs 0, []) ∧ decode [0xDF#8] = .ok (.trs 31, []) ∧
    decode [0xF0#8, 0x00#8] = .ok (.call 0 0, []) ∧ decode [0xFF#8, 0xFF#8] = .ok (.call 63 0x3F, []) ∧
    decode [0xF2#8, 0x85#8] = .ok (.call 10 5, []) ∧ decode [0x7D#8] = .ok (.rtn, [])) ∧
  (decode [0x10#8] = .ok (.lax 0, []) ∧ decode [0x1F#8] = .ok (.lax 15, []) ∧ decode [0x1A#8] = .ok (.lax 10, []) ∧
    decode [0x30#8] = .ok (.lbmx 0, []) ∧ decode [0x3F#8] = .ok (.lbmx 15, []) ∧ decode [0x33#8] = .ok (.lbmx 3, []) ∧
    decode [0x20#8] = .ok (.lblx 0, []) ∧ decode [0x2F#8] = .ok (.lblx 15, []) ∧ decode [0x27#8] = .ok (.lblx 7, []) ∧
    decode [0x50#8] = .ok (.lda 0, []) ∧ decode [0x53#8] = .ok (.lda 3, []) ∧ decode [0x52#8] = .ok (.lda 2, []) ∧
    decode [0x54#8] = .ok (.exc 0, []) ∧ decode [0x57#8] = .ok (.exc 3, []) ∧ decode [0x55#8] = .ok (.exc 1, []) ∧
    decode [0x58#8] = .ok (.exci 0, []) ∧ decode [0x5B#8] = .ok (.exci 3, []) ∧ decode [0x5C#8] = .ok (.excd 0, []) ∧
    decode [0x5F#8] = .ok (.excd 3, []) ∧ decode [0x64#8] = .ok (.exax, []) ∧ decode [0x65#8] = .ok (.atx, []) ∧
    decode [0x66#8] = .ok (.exbm, []) ∧ decode [0x67#8] = .ok (.exbl, []) ∧ decode [0x68#8] = .ok (.ex, [])) ∧
  (decode [0x00#8] = .ok (.nop, []) ∧ decode [0x01#8] = .ok (.adx 1, []) ∧ decode [0x0F#8] = .ok (.adx 15, []) ∧
    decode [0x7A#8] = .ok (.add, []) ∧ decode [0x7B#8] = .ok (.adc, []) ∧ decode [0x79#8] = .ok (.coma, []) ∧
    decode [0x78#8] = .ok (.incb, []) ∧ decode [0x7C#8] = .ok (.decb, []) ∧ decode [0x6E#8] = .ok (.tc, []) ∧
    decode [0x48#8] = .ok (.tm 0, []) ∧ decode [0x4B#8] = .ok (.tm 3, []) ∧ decode [0x6B#8] = .ok (.tabl, []) ∧
    decode [0x40#8] = .ok (.rm 0, []) ∧ decode [0x43#8] = .ok (.rm 3, []) ∧ decode [0x61#8] = .ok (.sc, []) ∧
    decode [0x60#8] = .ok (.rc, [])) ∧
  (decode [0x4C#8] = .ok (.tpb 0, []) ∧ decode [0x4D#8] = .ok (.tpb 1, []) ∧ decode [0x4F#8] = .ok (.tpb 3, []) ∧
    decode [0x71#8] = .ok (.outl, []) ∧ decode [0x75#8] = .ok (.out, []) ∧ decode [0x6A#8, 0x00#8] = .ok (.pat 0, []) ∧
    decode [0x6A#8, 0xFF#8] = .ok (.pat 0xFF, []) ∧ decode [0x69#8, 0x00#8] = .ok (.dta 0, []) ∧
    decode [0x69#8, 0xFF#8] = .ok (.dta 0xFF, []) ∧ decode [0x69#8, 0x7F#8] = .ok (.dta 0x7F, []))

/-! ### The step -/

/-- 40_engine_step.md section 2: with no host action pending and `SKIP` clear, a step runs the decoded instruction, on the
state with `FPC` captured, `PC` past the instruction's bytes (in-page wrap: the spec's D2, log 12) and `CYC` advanced by
their number. -/
def Obligations.StepRunsTheDecodedInstruction : Prop :=
  ∀ (s : State) (i : Instr), running s → s.host = [] → s.skip = false → fetches s i →
    step s = exec i { s with fpc := s.pc, pc := advanceBy s.pc (bytesOf i), cyc := s.cyc + bytesOf i }

/-- 40_engine_step.md section 2, with a host: the observation point comes after the fetch and before the count; the host may
end the run there; `SKIP` is read after it. That the host's moves are a list of which the step takes the first (log 3), and that
the step with `q` is a next state with `ended` set (log 2), are the model's DESIGN CHOICE (in-page wrap: the spec's D2, log
12). -/
def Obligations.StepWithHostRunsObservationFirst : Prop :=
  ∀ (s : State) (i : Instr), running s → fetches s i →
    ∃ t, t = State.observe { s with fpc := s.pc, pc := advanceBy s.pc (bytesOf i) } ∧
      step s = if t.ended then .next t
        else if t.skip then .next { t with cyc := t.cyc + bytesOf i, skip := false }
        else exec i { t with cyc := t.cyc + bytesOf i }

/-- 40_engine_step.md section 3 (R110): exactly the effects of a suppressed instruction, for every instruction, also one
that would fault (in-page wrap: the spec's D2, log 12). -/
def Obligations.SuppressedInstructionOnlyAdvances : Prop :=
  ∀ (s : State) (i : Instr), running s → s.host = [] → s.skip = true → fetches s i →
    step s = .next { s with fpc := s.pc, pc := advanceBy s.pc (bytesOf i), cyc := s.cyc + bytesOf i, skip := false }

/-- 40_engine_step.md section 1, parts 5 and 6 (R106, R107), on the state the observation point leaves: a step advances `CYC` by the
bytes fetched for its instruction, executed or suppressed; a set `SKIP` is cleared and nothing is executed, a clear one lets the
instruction execute, with `CYC` already advanced; a host `skip` at this observation point decides about this very instruction,
either way (the host's moves as a list, of which the step takes the first: the model's DESIGN CHOICE, log 3; the run's end as the field `ended`: log 2; in-page wrap: the spec's D2, log 12). The last part
says the same of the shared tail of a step, `runFetched`, for any count. -/
def Obligations.CycleCountComesBeforeTheSkipGate : Prop :=
  (∀ (s : State) (i : Instr), running s → fetches s i →
    ∃ t, t = State.observe { s with fpc := s.pc, pc := advanceBy s.pc (bytesOf i) } ∧
      (t.ended = false → t.skip = true → step s = .next { t with cyc := t.cyc + bytesOf i, skip := false }) ∧
      (t.ended = false → t.skip = false → step s = exec i { t with cyc := t.cyc + bytesOf i }) ∧
      (∀ later, s.host = [HostAction.skip] :: later → ∃ u, u = { s with
          fpc := s.pc, pc := advanceBy s.pc (bytesOf i), host := later, cyc := s.cyc + bytesOf i, skip := false } ∧
        (s.skip = false → step s = .next u) ∧ (s.skip = true → step s = exec i u))) ∧
  (∀ (s : State) (i : Instr) (n : Nat), s.observe.ended = false →
    (s.observe.skip = true → s.runFetched i n = .next { s.observe with cyc := s.observe.cyc + n, skip := false }) ∧
    (s.observe.skip = false → s.runFetched i n = exec i { s.observe with cyc := s.observe.cyc + n }) ∧
    (∀ later, s.ended = false → s.skip = false → s.host = [HostAction.skip] :: later →
      s.runFetched i n = .next { s with host := later, cyc := s.cyc + n }))

/-- 40_engine_step.md sections 1 and 3 (the spec's D13, D14, log 1, log 20): a step at one of the 17 bytes no row covers, which are
these (30_encoding.md section 3), records `UnknownOpcode` whatever `SKIP` and the host hold; `FPC` is written, `PC` is one byte
on, nothing else changes, `CYC` among it. -/
def Obligations.UndefinedByteFaultsAtDecode : Prop :=
  ∃ bytes : List Byte,
    bytes = [0x44#8, 0x45#8, 0x46#8, 0x47#8, 0x62#8, 0x63#8, 0x6C#8, 0x6D#8, 0x6F#8, 0x70#8, 0x72#8, 0x73#8, 0x74#8, 0x76#8,
      0x77#8, 0x7E#8, 0x7F#8] ∧
    (∀ op, opcodeLength op = none ↔ op ∈ bytes) ∧
    (∀ s : State, running s → s.romRead s.pc ∈ bytes →
      step s = .next { s with fpc := s.pc, pc := advance s.pc, fault := some (.unknownOpcode (s.romRead s.pc) s.pc) })

/-- 40_engine_step.md section 1 and 60_exceptions.md section 9 (`arg` 0x00 for one byte: the spec's D18, log 23): every step that
decodes shows the opcode byte, the argument byte and the frame PC, also for an instruction it then suppresses; a PC breakpoint
matches there exactly when the frame PC is its place, and the latch's exactly for `OUT` with `BL` = 15. -/
def Obligations.ObservationShowsEveryInstruction : Prop :=
  (∀ (s : State) (i : Instr), running s → fetches s i →
    observation s = some ⟨s.romRead s.pc, if bytesOf i = 2 then s.romRead (advance s.pc) else 0, s.pc⟩) ∧
  (∀ (s : State) (i : Instr) (pc : PC), (Breakpoint.atPc pc).hits s i = true ↔ s.fpc = pc) ∧
  (∀ (s : State) (i : Instr), Breakpoint.hiz.hits s i = true ↔ i = .out ∧ s.bl = 15)

/-- R100: "The machine takes a step when and only when FAULT is none and the host has not ended the run", so no instruction
stops it. -/
def Obligations.MachineStepsExactlyWhenRunning : Prop :=
  ∀ s : State, (∃ t, step s = .next t) ↔ s.fault = none ∧ s.ended = false

/-- 60_exceptions.md section 4 (the spec's D13, log 1): a recorded fault is final and is what the machine answers; a run the
host ended has no step either (log 2). -/
def Obligations.FaultedMachineHasNoStep : Prop :=
  (∀ (s : State) (f : Fault), step s = .fault f ↔ s.fault = some f) ∧
  (∀ (s : State), s.fault = none → s.ended = true → step s = .refused .runEnded)

/-- R240: every step that reaches its cycle count adds the bytes fetched: 2 for `TL`, `CALL`, `PAT`, `DTA` and 1 for every other
instruction, executed or suppressed, taken or not. -/
def Obligations.CycleCounterAddsBytesFetched : Prop :=
  ∀ (s t : State) (i : Instr), fetches s i → step s = .next t → t.ended = false →
    t.cyc = s.cyc + (match i with
      | .tl _ _ | .call _ _ | .pat _ | .dta _ => 2
      | _ => 1)

/-- 40_engine_step.md section 3 (R111, derived there): without a host, `SKIP` is set after a step that does not fault only if
the step executed an instruction of R28's list, so skips do not chain. -/
def Obligations.SkipsDoNotChain : Prop :=
  ∀ (s t : State) (i : Instr), s.host = [] → fetches s i → step s = .next t → t.skip = true →
    s.skip = false ∧ setsSkip i = true

/-- 40_engine_step.md section 3 (R115, derived there; in-page wrap: the spec's D2, log 12): on a page of zero bytes the machine
runs for ever, changing only `PC`, `FPC` and `CYC`. -/
def Obligations.ZeroPageRunsForEver : Prop :=
  ∀ (k : Nat) (s : State), running s → s.host = [] → s.skip = false → (∀ a, s.romRead ⟨s.pc.page, a⟩ = 0) →
    ∃ f, run k s = .next { s with
      pc := ⟨s.pc.page, BitVec.ofNat 6 (s.pc.addr.toNat + k)⟩, fpc := f, cyc := s.cyc + k }

/-- An instruction placed for the next fetch is the one the next step runs (log 10): with nothing pending, a table word that
decodes runs as the first instruction. -/
def Obligations.PlacedWordIsExecutedNext : Prop :=
  ∀ (s : State) (nbits w : Nat) (i : Instr), running s → s.host = [] → s.skip = false →
    decodeTableWord nbits w = some i →
    step (s.withFetchWord nbits w) =
      exec i { s.withFetchWord nbits w with fpc := s.pc, pc := advanceBy s.pc (bytesOf i), cyc := s.cyc + bytesOf i }

/-! ### Invariants and whole-machine rules -/

/-- 10_state.md section 10: reset under any configuration (the rows the spec decides by D12 and D13: log 8, log 1; the empty event
list: D19, log 24). `FPC` has no value there (log 7), so it is not named. That the reset input keeps the configuration and drops
the host's list and the end of the run, so that reset after reset is reset, is the model's DESIGN CHOICE (log 23). -/
def Obligations.ResetLeavesTheSpecState : Prop :=
  State.reset.resetPulse = State.reset ∧
  ∀ s t : State, t = s.resetPulse → t.a = 0 ∧ t.x = 0 ∧ t.bm = 0 ∧ t.bl = 0 ∧ t.sb = 0 ∧ t.c = false ∧ t.skip = false ∧
    t.pc = ⟨0, 0⟩ ∧ t.stack = [] ∧ (∀ b, Mem.read t.ram b = 0) ∧ t.cyc = 0 ∧ t.port0 = 0 ∧ t.port1 = 0 ∧ t.port2 = 0 ∧
    t.hiz = false ∧ t.fault = none ∧ t.events = [] ∧ t.cfg = s.cfg ∧ t.host = [] ∧ t.ended = false

/-- The invariant holds at reset, where the model's choices make it hold: the stack is empty (the spec's D12, log 8), the two
memories are in the canonical form the model keeps them in (DESIGN CHOICE, log 9), there is no image and no sample table
(DESIGN CHOICE, log 4). -/
def Obligations.InvariantHoldsAtReset : Prop := Inv State.reset

/-- Every step keeps the invariant, with any host: a depth of at most 4 (10_state.md section 5: "Invariant: depth never exceeds
4"), the canonical form of RAM and ROM (the model's DESIGN CHOICE, log 9), the sample table's form (the spec's D17, log 22). -/
def Obligations.EveryStepKeepsTheInvariant : Prop :=
  ∀ s t : State, Inv s → step s = .next t → Inv t

/-- R67: ROM is immutable, so fetched bytes are the same at every point of a run; and RAM cannot be fetched from: what is
fetched does not depend on RAM. -/
def Obligations.RomIsTheSameAtEveryPointOfARun : Prop :=
  (∀ (k : Nat) (s t : State), run k s = .next t → ∀ pc, t.romRead pc = s.romRead pc) ∧
  (∀ (s : State) (r : Mem 4) (i : Instr), fetches { s with ram := r } i ↔ fetches s i)

/-- 10_state.md section 7: events are only appended, at most one a step (their shapes: the spec's D19, log 24). -/
def Obligations.EventsAreOnlyAppended : Prop :=
  ∀ s t : State, step s = .next t → ∃ es, t.events = s.events ++ es ∧ es.length ≤ 1

/-- 60_exceptions.md section 9 (R208, derived there; no host is the empty list, log 3): without a host no step writes `PORT[0]`
(`OUTL` does not: the spec's D25, log 27), ends the run (log 2) or attaches a host; `PORT[2]` changes only by `OUT` (D1, log 11),
`PORT[1]` only by `TPB 1` (D10, log 19). -/
def Obligations.WithoutHostPortsChangeByInstructionOnly : Prop :=
  ∀ s t : State, s.host = [] → step s = .next t →
    t.port0 = s.port0 ∧ t.host = [] ∧ t.ended = s.ended ∧
    (t.port2 ≠ s.port2 → fetches s .out) ∧ (t.port1 ≠ s.port1 → fetches s (.tpb 1))

/-- 60_exceptions.md section 9: "The host cannot write A, X, BM, BL, SB, C, PC, STACK, CYC, HIZ, FAULT or ROM: no command does";
nor `FPC` and `EVENTS`. -/
def Obligations.HostActionsWriteOnlyPortsRamSkip : Prop :=
  ∀ (s : State) (acts : List HostAction), ∃ t, t = s.hostActs acts ∧ t.a = s.a ∧ t.x = s.x ∧ t.bm = s.bm ∧ t.bl = s.bl ∧
    t.sb = s.sb ∧ t.c = s.c ∧ t.pc = s.pc ∧ t.stack = s.stack ∧ t.cyc = s.cyc ∧ t.hiz = s.hiz ∧ t.fault = s.fault ∧
    t.cfg = s.cfg ∧ t.fpc = s.fpc ∧ t.events = s.events

/-- 60_exceptions.md section 9 (ranges of `poke`: the spec's D18, log 23), every action: `poke` writes one RAM cell and nothing
else, or nothing when out of range; `port` writes one port, or nothing when out of range; `skip` toggles; `q` ends the run (log
2); print and debugger commands change nothing. And 40_engine_step.md section 1: the observation point takes the host's next
list (its form is the model's, log 3) and applies its actions in their order; nothing follows `q` (log 23). -/
def Obligations.HostActionsDoWhatTheirCommandSays : Prop :=
  ∀ (s : State) (addr val n : Nat) (act : HostAction) (acts : List HostAction) (later : List (List HostAction)),
    (addr < 64 → val < 16 → ∃ t, t = s.hostAct (.poke addr val) ∧ t = { s with ram := t.ram } ∧
      ∀ b, Mem.read t.ram b = if b = addr then BitVec.ofNat 4 val else Mem.read s.ram b) ∧
    (64 ≤ addr ∨ 16 ≤ val → s.hostAct (.poke addr val) = s) ∧
    (val < 16 → s.hostAct (.port 0 val) = { s with port0 := BitVec.ofNat 4 val } ∧
      s.hostAct (.port 1 val) = { s with port1 := BitVec.ofNat 4 val } ∧
      s.hostAct (.port 2 val) = { s with port2 := BitVec.ofNat 4 val }) ∧
    (2 < n ∨ 16 ≤ val → s.hostAct (.port n val) = s) ∧
    s.hostAct .skip = { s with skip := !s.skip } ∧ s.hostAct .quit = { s with ended := true } ∧ s.hostAct .look = s ∧
    s.hostAct .debugger = s ∧
    (s.host = [] → s.observe = s) ∧
    (s.host = acts :: later → s.observe = State.hostActs { s with host := later } acts) ∧
    s.hostActs [] = s ∧ (act ≠ .quit → s.hostActs (act :: acts) = (s.hostAct act).hostActs acts) ∧
    s.hostActs (.quit :: acts) = s.hostAct .quit

/-- 70_reset_and_hazards.md section 2: a sample table is well formed when it has at most 100 entries with timestamps that
never fall in list order, and no table is well formed too; a launch with an image of at most 1024 bytes and a well-formed table
or none starts the
reset state (log 7, log 8) under the configuration given to it, image byte `64 * p + a` being `ROM[p][a]` and bytes past the
image 0x00, and the invariant holds (its canonical form: log 9); any other launch is refused (the spec's D17 and U18, log 22;
which refusal comes first is log 22's DESIGN CHOICE). -/
def Obligations.LaunchLaysOutTheImage : Prop :=
  samplesWf none = true ∧
  (∀ table : List Sample, samplesWf (some table) = true ↔ table.length ≤ 100 ∧ table.Pairwise (fun x y => x.ts ≤ y.ts)) ∧
  ∀ (image : List Byte) (samples : Option (List Sample)) (secret : BitVec 64) (pre : Nibble),
    (image.length ≤ 1024 → samplesWf samples = true → ∃ t, launch image samples secret pre = .next t ∧
      t = State.ofConfig t.cfg ∧ t.cfg.samples = samples ∧ t.cfg.secret = secret ∧ t.cfg.p1PreLevel = pre ∧ Inv t ∧
      ∀ pc : PC, t.romRead pc = image.getD (64 * pc.page.toNat + pc.addr.toNat) 0) ∧
    (1024 < image.length → launch image samples secret pre = .refused .imageTooLong) ∧
    (image.length ≤ 1024 → samplesWf samples = false → launch image samples secret pre = .refused .samplesIllFormed)

/-- 60_exceptions.md section 1 (R180; conditions 4 to 6 are the spec's D4, D5, D6, log 14 to 16; the order in `CALL` D27, log 28):
an instruction either completes and leaves `FAULT` as it was, or records exactly the fault of the table and changes nothing
else; every instruction answers a next state. -/
def Obligations.ExecutionFaultsExactlyByTheTable : Prop :=
  ∀ (i : Instr) (s : State),
    (∀ f, faultOf s i = some f → exec i s = .next { s with fault := some f }) ∧
    (faultOf s i = none → ∃ t, exec i s = .next t ∧ t.fault = s.fault)

/-- 10_state.md section 9 (R44, derived there; the port rows rest on the spec's D1, D7, D10, D25, log 11, 17, 19, 27): the frame of
every instruction: a piece of state its row does not write is unchanged, whether the instruction completes or faults; `FAULT` is
the table's business. -/
def Obligations.InstructionWritesOnlyItsRow : Prop :=
  ∀ (i : Instr) (s t : State) (f : Field), exec i s = .next t → f ∉ writes i → f ≠ .fault → agree s t f

/-- 10_state.md section 9 (R44, derived there), read as a bound on information: on two states that agree on what an
instruction's row reads, and on the `PC`, `STACK` and configuration that `Safety.reads` adds to R44's row where the
instruction's own rule reads them, every field its row writes ends the same in both, or is kept in both, the same events are put
out, and both fault or neither. -/
def Obligations.InstructionReadsOnlyItsRow : Prop :=
  ∀ (i : Instr) (s₁ s₂ t₁ t₂ : State), (∀ f, f ∈ reads i → agree s₁ s₂ f) → s₁.fault = none → s₂.fault = none →
    exec i s₁ = .next t₁ → exec i s₂ = .next t₂ →
    (∀ f, f ∈ writes i → f ≠ .events → agree t₁ t₂ f ∨ (agree s₁ t₁ f ∧ agree s₂ t₂ f)) ∧
    (∃ es, t₁.events = s₁.events ++ es ∧ t₂.events = s₂.events ++ es) ∧ (t₁.fault = none ↔ t₂.fault = none)

/-- 10_state.md section 4: only `TL`, `CALL`, `TRS` and `RTN` change the page of `PC` (in-page wrap: the spec's D2, log 12). -/
def Obligations.OnlyLongTransfersChangeThePage : Prop :=
  ∀ (s t : State) (i : Instr), fetches s i → step s = .next t → t.pc.page ≠ s.pc.page →
    (∃ p a, i = .tl p a ∨ i = .call p a) ∨ (∃ e, i = .trs e) ∨ i = .rtn

/-- 70_reset_and_hazards.md section 3 (R232): `BM` leaves 0 to 3 only by `LBMX`, `EXBM` or `EX`. -/
def Obligations.PointerLeavesRamOnlyByThree : Prop :=
  ∀ (i : Instr) (s t : State), exec i s = .next t → s.bm.toNat < 4 → 4 ≤ t.bm.toNat →
    (∃ n, i = .lbmx n) ∨ i = .exbm ∨ i = .ex

/-! ### Control transfer -/

/-- 41_control_transfer.md (R120, R121; the range check is the spec's D5, log 15): `TR` keeps the page; `TL` takes page and
address for a page of 0 to 15, and records `RomPage` for 16 and more, `PC` not written. -/
def Obligations.JumpsWriteOnlyThePc : Prop :=
  ∀ (s : State) (p a : SixBits),
    exec (.tr a) s = .next { s with pc := ⟨s.pc.page, a⟩ } ∧
    (p.toNat < 16 → exec (.tl p a) s = .next { s with pc := ⟨BitVec.ofNat 4 p.toNat, a⟩ }) ∧
    (16 ≤ p.toNat → exec (.tl p a) s = .next { s with fault := some (.romPage p a) })

/-- R122: `TRS t` is the one byte `110ttttt`; it pushes `PC` and goes to page 1, address `2 * t`, which is even; with 4 entries saved
it records `StackOverflow`, `PC` and `STACK` unchanged. Any page, page 1 too. -/
def Obligations.ShortCallPushesAndGoesToPageOne : Prop :=
  ∀ (s : State) (t : BitVec 5) (arg : Byte),
    decodeOp (0xC0#8 ||| t.setWidth 8) arg = some (.trs t) ∧ opcodeLength (0xC0#8 ||| t.setWidth 8) = some 1 ∧
    (s.stack.length ≠ 4 → exec (.trs t) s =
      .next { s with stack := s.pc :: s.stack, pc := ⟨1, BitVec.ofNat 6 (2 * t.toNat)⟩ }) ∧
    (s.stack.length = 4 → exec (.trs t) s = .next { s with fault := some (.stackOverflow s.fpc) })

/-- 41_control_transfer.md (R123; order of the faults: the spec's D27, log 28; `RomPage`: D5, log 15): `CALL` pushes `PC` and goes
to its target; a full stack records `StackOverflow` whatever the target, a page of 16 or more `RomPage` with nothing
pushed. -/
def Obligations.LongCallChecksThenPushesThenJumps : Prop :=
  ∀ (s : State) (p a : SixBits),
    (s.stack.length ≠ 4 → p.toNat < 16 → exec (.call p a) s =
      .next { s with stack := s.pc :: s.stack, pc := ⟨BitVec.ofNat 4 p.toNat, a⟩ }) ∧
    (s.stack.length = 4 → exec (.call p a) s = .next { s with fault := some (.stackOverflow s.fpc) }) ∧
    (s.stack.length ≠ 4 → 16 ≤ p.toNat → exec (.call p a) s = .next { s with fault := some (.romPage p a) })

/-- R124: `RTN` is the one byte 0x7D; it pops `PC` and nothing else changes, no flag; on an empty stack it records
`StackUnderflow`. -/
def Obligations.ReturnPopsThePc : Prop :=
  ∀ (s : State) (v : PC) (rest : List PC) (arg : Byte),
    decodeOp 0x7D#8 arg = some .rtn ∧ opcodeLength 0x7D#8 = some 1 ∧
    (s.stack = v :: rest → exec .rtn s = .next { s with pc := v, stack := rest }) ∧
    (s.stack = [] → exec .rtn s = .next { s with fault := some (.stackUnderflow s.fpc) })

/-- 41_control_transfer.md section on the calling convention (R125): a return in any state with the stack a call left goes
back to the instruction after the call, with the stack of before; registers, `C` and RAM pass through the call. -/
def Obligations.ReturnUndoesACall : Prop :=
  ∀ (s t u : State) (i : Instr), (∃ p a, i = .call p a) ∨ (∃ e, i = .trs e) → s.fault = none →
    exec i s = .next t → t.fault = none → u.stack = t.stack →
    exec .rtn u = .next { u with pc := s.pc, stack := s.stack } ∧
    t = { s with pc := t.pc, stack := t.stack }

/-! ### Loads and register moves -/

/-- R130: `LAX n` is the byte `0001nnnn`; `A` becomes `n` and nothing else changes; of two `LAX` in a row both execute and the
second wins. -/
def Obligations.LoadImmediateWritesA : Prop :=
  ∀ (s : State) (n m : Nibble) (arg : Byte),
    decodeOp (0x10#8 ||| n.setWidth 8) arg = some (.lax n) ∧
    exec (.lax n) s = .next { s with a := n } ∧
    (∃ t, exec (.lax n) s = .next t ∧ exec (.lax m) t = .next { s with a := m })

/-- 42_load_exchange.md section 1: `LBLX` and `LBMX` write their half of `B` and keep the other, so `B` becomes the pair. -/
def Obligations.PointerLoadsWriteOneNibble : Prop :=
  ∀ (s : State) (n : Nibble),
    (∃ t, exec (.lblx n) s = .next t ∧ t = { s with bl := t.bl } ∧ t.b.toNat = 16 * s.bm.toNat + n.toNat) ∧
    (∃ t, exec (.lbmx n) s = .next t ∧ t = { s with bm := t.bm } ∧ t.b.toNat = 16 * n.toNat + s.bl.toNat)

/-- 42_load_exchange.md section 3 (which byte is which: the spec's D21, log 25): the four nibble moves and their bytes; each
exchange done twice changes nothing. -/
def Obligations.RegisterMovesExchangeNibbles : Prop :=
  ∀ (s : State) (arg : Byte),
    [0x64#8, 0x65#8, 0x66#8, 0x67#8, 0x68#8].map (decodeOp · arg) = [some .exax, some .atx, some .exbm, some .exbl, some .ex] ∧
    exec .exax s = .next { s with a := s.x, x := s.a } ∧ exec .atx s = .next { s with x := s.a } ∧
    exec .exbm s = .next { s with a := s.bm, bm := s.a } ∧ exec .exbl s = .next { s with a := s.bl, bl := s.a } ∧
    (∀ i t, i = .exax ∨ i = .exbm ∨ i = .exbl → exec i s = .next t → exec i t = .next s)

/-- 42_load_exchange.md section 3: `EX` exchanges `B` and `SB` and nothing else; two in a row restore both. -/
def Obligations.ExchangeOfPointerAndShadow : Prop :=
  ∀ s : State, ∃ t, exec .ex s = .next t ∧ t.b = s.sb ∧ t.sb = s.b ∧ t = { s with bm := t.bm, bl := t.bl, sb := t.sb } ∧
    exec .ex t = .next s

/-! ### RAM load and exchange -/

/-- 42_load_exchange.md section 2: `LDA m` with `BM` 0 to 3: `A` gets the cell at the old `B`, `BM` its exclusive-or with `m`,
which stays 0 to 3, and nothing else changes. -/
def Obligations.LoadFromRamReadsTheOldPointer : Prop :=
  ∀ (s : State) (m : BitVec 2), s.bm.toNat < 4 → ∃ t, exec (.lda m) s = .next t ∧
    t.a = Mem.read s.ram s.b.toNat ∧ t.bm.toNat = s.bm.toNat ^^^ m.toNat ∧ t.bm.toNat < 4 ∧
    t = { s with a := t.a, bm := t.bm }

/-- 42_load_exchange.md section 2: `EXC m` with `BM` 0 to 3 exchanges `A` and the cell at the old `B`; every other cell reads
as before. -/
def Obligations.ExchangeSwapsAccumulatorAndCell : Prop :=
  ∀ (s : State) (m : BitVec 2), s.bm.toNat < 4 → ∃ t, exec (.exc m) s = .next t ∧
    t.a = Mem.read s.ram s.b.toNat ∧ (∀ b, Mem.read t.ram b = if b = s.b.toNat then s.a else Mem.read s.ram b) ∧
    t.bm.toNat = s.bm.toNat ^^^ m.toNat ∧ t = { s with a := t.a, ram := t.ram, bm := t.bm }

/-- 42_load_exchange.md section 2: `EXCI m` and `EXCD m` with `BM` 0 to 3: the exchange with the cell at the old `B`, then `BL` one
up or one down modulo 16, `SKIP` set exactly on the wrap to 0 or to 15 (a set one stays), then the exclusive-or of `BM`; no
carry from `BL` into `BM`, and every other cell and piece of state as before. -/
def Obligations.ExchangeAndStepSkipsOnWrap : Prop :=
  ∀ (s : State) (m : BitVec 2), s.bm.toNat < 4 →
    (∃ t, exec (.exci m) s = .next t ∧
      t.a = Mem.read s.ram s.b.toNat ∧ (∀ b, Mem.read t.ram b = if b = s.b.toNat then s.a else Mem.read s.ram b) ∧
      t.bl.toNat = (s.bl.toNat + 1) % 16 ∧ (t.skip = true ↔ s.skip = true ∨ s.bl.toNat = 15) ∧
      t.bm.toNat = s.bm.toNat ^^^ m.toNat ∧
      t = { s with a := t.a, ram := t.ram, bl := t.bl, bm := t.bm, skip := t.skip }) ∧
    (∃ t, exec (.excd m) s = .next t ∧
      t.a = Mem.read s.ram s.b.toNat ∧ (∀ b, Mem.read t.ram b = if b = s.b.toNat then s.a else Mem.read s.ram b) ∧
      t.bl.toNat = (s.bl.toNat + 15) % 16 ∧ (t.skip = true ↔ s.skip = true ∨ s.bl.toNat = 0) ∧
      t.bm.toNat = s.bm.toNat ^^^ m.toNat ∧
      t = { s with a := t.a, ram := t.ram, bl := t.bl, bm := t.bm, skip := t.skip })

/-- 20_memory.md section 1 (the spec's D4, log 14): a RAM instruction with `BM` 4 to 15 records `RamRange` of its pointer and
changes nothing else. -/
def Obligations.RamInstructionsFaultOutsideRam : Prop :=
  ∀ (i : Instr) (s : State), touchesRam i = true → 4 ≤ s.bm.toNat →
    exec i s = .next { s with fault := some (.ramRange s.b) }

/-! ### Arithmetic, tests, bits -/

/-- R150: `ADX n`, n from 1 to 15, is the byte `0000nnnn` (0x00 is `NOP`); `A` gets `A + n` modulo 16, `SKIP` is set exactly
when the sum is 16 or more (on entry it is clear; a set one stays), and nothing else changes, `C` among it. -/
def Obligations.AddImmediateSkipsOnOverflow : Prop :=
  ∀ (s : State) (n : Nibble) (arg : Byte),
    decodeOp (0x00#8 ||| n.setWidth 8) arg = some (if n = 0 then .nop else .adx n) ∧
    exec (.adx n) s = .next { s with
      a := BitVec.ofNat 4 ((s.a.toNat + n.toNat) % 16), skip := s.skip || decide (16 ≤ s.a.toNat + n.toNat) }

/-- 43_arith_test_bit.md section 2: `ADD` with `BM` 0 to 3: `A` gets the sum with the cell at `B` modulo 16, no flag, nothing
else. -/
def Obligations.AddFromRamTouchesNoFlag : Prop :=
  ∀ s : State, s.bm.toNat < 4 → ∃ t, exec .add s = .next t ∧
    t.a.toNat = (s.a.toNat + (Mem.read s.ram s.b.toNat).toNat) % 16 ∧ t = { s with a := t.a }

/-- 43_arith_test_bit.md section 2: `ADC` with `BM` 0 to 3: the exact sum with the cell and `C` is 16 times the new `C` plus the
new `A`, and `SKIP` is set exactly when the new `C` is 1 (a set one stays). -/
def Obligations.AddWithCarrySplitsTheExactSum : Prop :=
  ∀ s : State, s.bm.toNat < 4 → ∃ t, exec .adc s = .next t ∧
    16 * t.c.toNat + t.a.toNat = s.a.toNat + (Mem.read s.ram s.b.toNat).toNat + s.c.toNat ∧
    t.skip = (s.skip || t.c) ∧ t = { s with a := t.a, c := t.c, skip := t.skip }

/-- R153: `COMA` is the byte 0x79; `A` becomes `15 - A`, no flag, nothing else. -/
def Obligations.ComplementIsFifteenMinus : Prop :=
  ∀ (s : State) (arg : Byte), decodeOp 0x79#8 arg = some .coma ∧
    ∃ t, exec .coma s = .next t ∧ t.a.toNat = 15 - s.a.toNat ∧ t = { s with a := t.a }

/-- 43_arith_test_bit.md section 3 (wrap directions: the spec's D22, log 26): `INCB` and `DECB` step `BL` modulo 16 and set
`SKIP` exactly on their wrap; `BM` unchanged, no fault for any `BM`; each undoes the other's step. -/
def Obligations.StepsOfBlSkipOnTheirWrap : Prop :=
  ∀ s : State,
    (∃ t, exec .incb s = .next t ∧ t.bl.toNat = (s.bl.toNat + 1) % 16 ∧ (t.skip = true ↔ s.skip = true ∨ s.bl.toNat = 15) ∧
      t = { s with bl := t.bl, skip := t.skip } ∧ ∃ u, exec .decb t = .next u ∧ u.bl = s.bl) ∧
    (∃ t, exec .decb s = .next t ∧ t.bl.toNat = (s.bl.toNat + 15) % 16 ∧ (t.skip = true ↔ s.skip = true ∨ s.bl.toNat = 0) ∧
      t = { s with bl := t.bl, skip := t.skip } ∧ ∃ u, exec .incb t = .next u ∧ u.bl = s.bl)

/-- R156, R158: `TC` is the byte 0x6E and sets `SKIP` if `C`; `TABL` is the byte 0x6B and sets it if `A` = `BL`; otherwise `SKIP` is
left, and nothing else changes. -/
def Obligations.CarryAndEqualityTestsSetOnlySkip : Prop :=
  ∀ (s : State) (arg : Byte), decodeOp 0x6E#8 arg = some .tc ∧ decodeOp 0x6B#8 arg = some .tabl ∧
    exec .tc s = .next { s with skip := s.skip || s.c } ∧
    exec .tabl s = .next { s with skip := s.skip || decide (s.a.toNat = s.bl.toNat) }

/-- 43_arith_test_bit.md section 4: `TM k` with `BM` 0 to 3 sets `SKIP` when bit `k` of the cell at `B` is 1, bit 0 the least
significant; RAM and everything else unchanged. -/
def Obligations.RamBitTestSetsOnlySkip : Prop :=
  ∀ (s : State) (k : BitVec 2), s.bm.toNat < 4 →
    exec (.tm k) s = .next { s with
      skip := s.skip || decide ((Mem.read s.ram s.b.toNat).toNat / 2 ^ k.toNat % 2 = 1) }

/-- 43_arith_test_bit.md section 5: `RM k` with `BM` 0 to 3 clears bit `k` of the cell at `B`, keeps its other bits, and every
other cell and every other piece of state. -/
def Obligations.RamBitResetClearsOneBit : Prop :=
  ∀ (s : State) (k : BitVec 2), s.bm.toNat < 4 → ∃ t, exec (.rm k) s = .next t ∧
    (∀ j < 4, (Mem.read t.ram s.b.toNat).getLsbD j = (if j = k.toNat then false else (Mem.read s.ram s.b.toNat).getLsbD j)) ∧
    (∀ b, b ≠ s.b.toNat → Mem.read t.ram b = Mem.read s.ram b) ∧ t = { s with ram := t.ram }

/-- R160, R161: `SC` is the byte 0x61 and sets `C`, `RC` the byte 0x60 and clears it; `SKIP` and everything else untouched. -/
def Obligations.CarryIsSetAndReset : Prop :=
  ∀ (s : State) (arg : Byte), decodeOp 0x61#8 arg = some .sc ∧ decodeOp 0x60#8 arg = some .rc ∧
    exec .sc s = .next { s with c := true } ∧ exec .rc s = .next { s with c := false }

/-- 43_arith_test_bit.md section 6: the byte 0x00 is `NOP`, before the `ADX` range, and does nothing; its step, at any place of
ROM, changes only `PC`, by one byte (in-page wrap: the spec's D2, log 12), `FPC`, and `CYC`, by 1. -/
def Obligations.NopChangesNothing : Prop :=
  ∀ (s : State) (arg : Byte), decodeOp 0x00#8 arg = some .nop ∧ exec .nop s = .next s ∧
    (running s → s.host = [] → s.skip = false → s.romRead s.pc = 0 →
      step s = .next { s with fpc := s.pc, pc := ⟨s.pc.page, s.pc.addr + 1⟩, cyc := s.cyc + 1 })

/-! ### Ports and tables -/

/-- 44_io_special.md (R170; index 3 the spec's D6, log 16; `HIZ` not consulted D24, log 27; where the value of port 1 is kept D10,
log 19): the four forms of `TPB`. -/
def Obligations.PortTestByIndex : Prop :=
  ∀ s : State,
    exec (.tpb 0) s = .next { s with skip := true, events := s.events ++ [.portTest 0 s.port0] } ∧
    (∃ v t, exec (.tpb 1) s = .next t ∧ v = s.port1Level ∧
      t = { s with port1 := v, skip := s.skip || decide (v.toNat ≠ 0), events := s.events ++ [.portTest 1 v] }) ∧
    exec (.tpb 2) s =
      .next { s with skip := s.skip || decide (s.port2.toNat ≠ 0), events := s.events ++ [.portTest 2 s.port2] } ∧
    exec (.tpb 3) s = .next { s with fault := some (.portIndex 3) }

/-- 60_exceptions.md section 7 (kept in `PORT[1]`: the spec's D10, log 19): with no sample table a read of port 1 gives 1
where `PORT[1]` was 0 and 0 where it was anything else, so two consecutive reads differ, from any starting value, and each is 0
or 1. -/
def Obligations.ToggleReadsAlternate : Prop :=
  ∀ (s t u : State), s.cfg.samples = none → exec (.tpb 1) s = .next t → u.port1 = t.port1 → u.cfg = t.cfg →
    t.port1.toNat ≤ 1 ∧ (s.port1 = 0 → t.port1 = 1) ∧ (s.port1 ≠ 0 → t.port1 = 0) ∧
    ∃ v, exec (.tpb 1) u = .next v ∧ v.port1.toNat + t.port1.toNat = 1

/-- 60_exceptions.md section 7 (before the first sample: the spec's D11, log 6): with a table, the value `TPB 1` tests is the level
of the last entry in list order whose timestamp is at most `CYC`, and the open parameter when there is none: `SKIP` is set exactly
when it is not 0 (a set one stays), it is the value in the event (shape: D19, log 24), and it is kept in `PORT[1]` (the spec's
D10, log 19); nothing else changes. -/
def Obligations.SampleReadTakesTheLastQualifyingEntry : Prop :=
  ∀ (s : State) (before after : List Sample) (e : Sample) (table : List Sample), s.cfg.samples = some table →
    (table = before ++ e :: after → e.ts ≤ s.cyc → (∀ x ∈ after, s.cyc < x.ts) →
      exec (.tpb 1) s = .next { s with
        port1 := e.level, skip := s.skip || decide (e.level.toNat ≠ 0), events := s.events ++ [.portTest 1 e.level] }) ∧
    ((∀ x ∈ table, s.cyc < x.ts) →
      exec (.tpb 1) s = .next { s with
        port1 := s.cfg.p1PreLevel, skip := s.skip || decide (s.cfg.p1PreLevel.toNat ≠ 0),
        events := s.events ++ [.portTest 1 s.cfg.p1PreLevel] })

/-- 44_io_special.md (R171, R172; port 2 the spec's D1, log 11; other `BL` D7, log 17; `OUTL` stores nothing D25, log 27) and the
pin of 60_exceptions.md section 7: `OUTL` puts out `A`; `OUT` writes the latch at `BL` 15, port 2 at `BL` 2, nothing but an event
at any other `BL`; the pin shows port 2 exactly while the latch is clear. -/
def Obligations.OutputsBySelector : Prop :=
  ∀ s : State,
    exec .outl s = .next { s with events := s.events ++ [.outL s.a] } ∧
    (s.bl.toNat = 15 → ∃ h t, h = decide (s.a.toNat = 0) ∧ exec .out s = .next t ∧
      t = { s with hiz := h, events := s.events ++ [.outHiz h] } ∧
      (t.pin2 = if s.a.toNat = 0 then .undriven else .level s.port2)) ∧
    (s.bl.toNat = 2 → ∃ t, exec .out s = .next t ∧ t = { s with port2 := s.a, events := s.events ++ [.outPort s.a] } ∧
      (t.pin2 = if s.hiz then .undriven else .level s.a)) ∧
    (s.bl.toNat ≠ 15 → s.bl.toNat ≠ 2 → exec .out s = .next { s with events := s.events ++ [.outOther s.bl s.a] })

/-- 44_io_special.md (R173; bit order the spec's D8, log 18; the argument ignored D15, log 21): `PAT` reads the byte at page 4,
address `16 * (X mod 4) + A`, into `X` (high) and `A` (low), and changes nothing else. -/
def Obligations.TableReadSplitsTheByte : Prop :=
  ∀ (s : State) (x : Byte), ∃ t d, exec (.pat x) s = .next t ∧
    d = s.romRead ⟨4, BitVec.ofNat 6 (16 * (s.x.toNat % 4) + s.a.toNat)⟩ ∧ 16 * t.x.toNat + t.a.toNat = d.toNat ∧
    t = { s with x := t.x, a := t.a }

/-- 44_io_special.md (R174; the table is open, D9, log 5; the argument ignored D15, log 21): `DTA` leaves `SKIP` at the secret bit
for `BM` 4 to 7 and does nothing for any other `BM`; and every table the spec allows is the table of some configuration. -/
def Obligations.SecretBitTest : Prop :=
  (∀ (s : State) (x : Byte),
    (4 ≤ s.bm.toNat → s.bm.toNat ≤ 7 → exec (.dta x) s = .next { s with skip := secretBit s.cfg s.bm s.bl }) ∧
    (s.bm.toNat < 4 ∨ 7 < s.bm.toNat → exec (.dta x) s = .next s)) ∧
  (∀ (f : Nibble → Nibble → Bool) (cfg : Config), ∃ w : BitVec 64,
    ∀ bm bl : Nibble, 4 ≤ bm.toNat → bm.toNat ≤ 7 → secretBit { cfg with secret := w } bm bl = f bm bl)
end

