-- ==== Sys2Proof/Laws/Memory.lean ====
section
/-! SUPPORT. The laws of memory: a read after a write, other cells, and the canonical form. -/

namespace Sys2Proof.Machine

variable {w : Nat}

theorem Mem.read_erase_same (m : Mem w) (a : Nat) : Mem.read (Mem.erase m a) a = 0 := by
  induction m with
  | nil => rfl
  | cons e rest ih =>
    obtain ⟨b, u⟩ := e
    by_cases h : b = a
    · simpa [Mem.erase, h] using ih
    · simpa [Mem.erase, Mem.read, h] using ih

theorem Mem.read_erase_other (m : Mem w) {a c : Nat} (hc : c ≠ a) : Mem.read (Mem.erase m a) c = Mem.read m c := by
  induction m with
  | nil => rfl
  | cons e rest ih =>
    obtain ⟨b, u⟩ := e
    by_cases h : b = a
    · subst h
      simpa [Mem.erase, Mem.read, Ne.symm hc] using ih
    · by_cases hb : b = c
      · subst hb
        simp [Mem.erase, Mem.read, h]
      · simpa [Mem.erase, Mem.read, h, hb] using ih

theorem Mem.erase_fresh (m : Mem w) (a : Nat) : ∀ e ∈ Mem.erase m a, e.1 ≠ a := by
  intro e he
  simpa using (List.mem_filter.mp he).2

theorem Mem.read_insert (m : Mem w) {a c : Nat} (v : BitVec w) (fresh : ∀ e ∈ m, e.1 ≠ a) :
    Mem.read (Mem.insert m a v) c = if c = a then v else Mem.read m c := by
  induction m with
  | nil => simp only [Mem.insert, Mem.read, eq_comm (a := a)]
  | cons e rest ih =>
    obtain ⟨b, u⟩ := e
    have hba : b ≠ a := fresh _ (List.mem_cons_self ..)
    have ih := ih fun e he => fresh e (List.mem_cons_of_mem _ he)
    by_cases hb : a < b
    · by_cases h : c = a
      · simp [Mem.insert, Mem.read, hb, h]
      · simp [Mem.insert, Mem.read, hb, h, Ne.symm h]
    · by_cases hbc : b = c
      · subst hbc
        simp [Mem.insert, Mem.read, hb, hba]
      · simpa [Mem.insert, Mem.read, hb, hbc] using ih

/-- What every cell holds after a write: the written value, or what it held. -/
@[simp] theorem Mem.read_write (m : Mem w) (a c : Nat) (v : BitVec w) :
    Mem.read (Mem.write m a v) c = if c = a then v else Mem.read m c := by
  unfold Mem.write
  split
  · subst_vars
    split
    · subst_vars; exact Mem.read_erase_same m _
    · exact Mem.read_erase_other m ‹_›
  · rw [Mem.read_insert _ _ (Mem.erase_fresh m a)]
    split
    · rfl
    · exact Mem.read_erase_other m ‹_›

theorem Mem.wfFrom_mono {size lo lo' : Nat} (h : lo' ≤ lo) :
    ∀ {m : Mem w}, Mem.wfFrom size lo m = true → Mem.wfFrom size lo' m = true
  | [], _ => rfl
  | (b, u) :: rest, hm => by
    simp only [Mem.wfFrom, Bool.and_eq_true, decide_eq_true_eq] at hm ⊢
    exact ⟨⟨⟨by omega, hm.1.1.2⟩, hm.1.2⟩, hm.2⟩

theorem Mem.wfFrom_erase (size a : Nat) :
    ∀ {lo : Nat} {m : Mem w}, Mem.wfFrom size lo m = true → Mem.wfFrom size lo (Mem.erase m a) = true
  | _, [], _ => rfl
  | lo, (b, u) :: rest, hm => by
    have hm' := hm
    simp only [Mem.wfFrom, Bool.and_eq_true, decide_eq_true_eq] at hm
    have ih := Mem.wfFrom_erase size a hm.2
    by_cases h : b = a
    · have := Mem.wfFrom_mono (show lo ≤ b + 1 by omega) ih
      simpa [Mem.erase, h] using this
    · have : Mem.erase ((b, u) :: rest) a = (b, u) :: Mem.erase rest a := by simp [Mem.erase, h]
      simp only [this, Mem.wfFrom, Bool.and_eq_true, decide_eq_true_eq]
      exact ⟨hm.1, ih⟩

theorem Mem.wfFrom_insert {size a : Nat} {v : BitVec w} (ha : a < size) (hv : v ≠ 0) :
    ∀ {lo : Nat} {m : Mem w}, lo ≤ a → (∀ e ∈ m, e.1 ≠ a) → Mem.wfFrom size lo m = true →
      Mem.wfFrom size lo (Mem.insert m a v) = true
  | lo, [], hlo, _, _ => by simpa [Mem.insert, Mem.wfFrom, hlo, ha] using hv
  | lo, (b, u) :: rest, hlo, fresh, hm => by
    have hba : b ≠ a := fresh _ (List.mem_cons_self ..)
    simp only [Mem.wfFrom, Bool.and_eq_true, decide_eq_true_eq] at hm
    by_cases hb : a < b
    · simp only [Mem.insert, hb, if_true, Mem.wfFrom, Bool.and_eq_true, decide_eq_true_eq]
      exact ⟨⟨⟨hlo, ha⟩, by simpa using hv⟩, ⟨⟨by omega, hm.1.1.2⟩, hm.1.2⟩, hm.2⟩
    · simp only [Mem.insert, hb, if_false, Mem.wfFrom, Bool.and_eq_true, decide_eq_true_eq]
      exact ⟨hm.1, Mem.wfFrom_insert ha hv (by omega) (fun e he => fresh e (List.mem_cons_of_mem _ he)) hm.2⟩

/-- A write keeps the canonical form. -/
theorem Mem.wf_write {size a : Nat} {m : Mem w} (v : BitVec w) (ha : a < size) (hm : Mem.wf size m = true) :
    Mem.wf size (Mem.write m a v) = true := by
  unfold Mem.write
  split
  · exact Mem.wfFrom_erase size a hm
  · exact Mem.wfFrom_insert ha ‹_› (Nat.zero_le a) (Mem.erase_fresh m a) (Mem.wfFrom_erase size a hm)

end Sys2Proof.Machine
end

