-- ==== Sys2Proof/Laws/State.lean ====
section
/-! SUPPORT. Which fields the shared updates of the state change: one lemma per field per update. -/

namespace Sys2Proof.Machine.State

open Sys2Proof

@[simp] theorem raise_a (s : State) (f : Fault) : (s.raise f).a = s.a := rfl
@[simp] theorem raise_x (s : State) (f : Fault) : (s.raise f).x = s.x := rfl
@[simp] theorem raise_bm (s : State) (f : Fault) : (s.raise f).bm = s.bm := rfl
@[simp] theorem raise_bl (s : State) (f : Fault) : (s.raise f).bl = s.bl := rfl
@[simp] theorem raise_sb (s : State) (f : Fault) : (s.raise f).sb = s.sb := rfl
@[simp] theorem raise_c (s : State) (f : Fault) : (s.raise f).c = s.c := rfl
@[simp] theorem raise_skip (s : State) (f : Fault) : (s.raise f).skip = s.skip := rfl
@[simp] theorem raise_pc (s : State) (f : Fault) : (s.raise f).pc = s.pc := rfl
@[simp] theorem raise_fpc (s : State) (f : Fault) : (s.raise f).fpc = s.fpc := rfl
@[simp] theorem raise_stack (s : State) (f : Fault) : (s.raise f).stack = s.stack := rfl
@[simp] theorem raise_ram (s : State) (f : Fault) : (s.raise f).ram = s.ram := rfl
@[simp] theorem raise_cyc (s : State) (f : Fault) : (s.raise f).cyc = s.cyc := rfl
@[simp] theorem raise_port0 (s : State) (f : Fault) : (s.raise f).port0 = s.port0 := rfl
@[simp] theorem raise_port1 (s : State) (f : Fault) : (s.raise f).port1 = s.port1 := rfl
@[simp] theorem raise_port2 (s : State) (f : Fault) : (s.raise f).port2 = s.port2 := rfl
@[simp] theorem raise_hiz (s : State) (f : Fault) : (s.raise f).hiz = s.hiz := rfl
@[simp] theorem raise_fault (s : State) (f : Fault) : (s.raise f).fault = (some f) := rfl
@[simp] theorem raise_events (s : State) (f : Fault) : (s.raise f).events = s.events := rfl
@[simp] theorem raise_cfg (s : State) (f : Fault) : (s.raise f).cfg = s.cfg := rfl
@[simp] theorem raise_host (s : State) (f : Fault) : (s.raise f).host = s.host := rfl
@[simp] theorem raise_ended (s : State) (f : Fault) : (s.raise f).ended = s.ended := rfl

@[simp] theorem emit_a (s : State) (e : Event) : (s.emit e).a = s.a := rfl
@[simp] theorem emit_x (s : State) (e : Event) : (s.emit e).x = s.x := rfl
@[simp] theorem emit_bm (s : State) (e : Event) : (s.emit e).bm = s.bm := rfl
@[simp] theorem emit_bl (s : State) (e : Event) : (s.emit e).bl = s.bl := rfl
@[simp] theorem emit_sb (s : State) (e : Event) : (s.emit e).sb = s.sb := rfl
@[simp] theorem emit_c (s : State) (e : Event) : (s.emit e).c = s.c := rfl
@[simp] theorem emit_skip (s : State) (e : Event) : (s.emit e).skip = s.skip := rfl
@[simp] theorem emit_pc (s : State) (e : Event) : (s.emit e).pc = s.pc := rfl
@[simp] theorem emit_fpc (s : State) (e : Event) : (s.emit e).fpc = s.fpc := rfl
@[simp] theorem emit_stack (s : State) (e : Event) : (s.emit e).stack = s.stack := rfl
@[simp] theorem emit_ram (s : State) (e : Event) : (s.emit e).ram = s.ram := rfl
@[simp] theorem emit_cyc (s : State) (e : Event) : (s.emit e).cyc = s.cyc := rfl
@[simp] theorem emit_port0 (s : State) (e : Event) : (s.emit e).port0 = s.port0 := rfl
@[simp] theorem emit_port1 (s : State) (e : Event) : (s.emit e).port1 = s.port1 := rfl
@[simp] theorem emit_port2 (s : State) (e : Event) : (s.emit e).port2 = s.port2 := rfl
@[simp] theorem emit_hiz (s : State) (e : Event) : (s.emit e).hiz = s.hiz := rfl
@[simp] theorem emit_fault (s : State) (e : Event) : (s.emit e).fault = s.fault := rfl
@[simp] theorem emit_events (s : State) (e : Event) : (s.emit e).events = (s.events ++ [e]) := rfl
@[simp] theorem emit_cfg (s : State) (e : Event) : (s.emit e).cfg = s.cfg := rfl
@[simp] theorem emit_host (s : State) (e : Event) : (s.emit e).host = s.host := rfl
@[simp] theorem emit_ended (s : State) (e : Event) : (s.emit e).ended = s.ended := rfl

@[simp] theorem skipIf_a (s : State) (b : Bool) : (s.skipIf b).a = s.a := rfl
@[simp] theorem skipIf_x (s : State) (b : Bool) : (s.skipIf b).x = s.x := rfl
@[simp] theorem skipIf_bm (s : State) (b : Bool) : (s.skipIf b).bm = s.bm := rfl
@[simp] theorem skipIf_bl (s : State) (b : Bool) : (s.skipIf b).bl = s.bl := rfl
@[simp] theorem skipIf_sb (s : State) (b : Bool) : (s.skipIf b).sb = s.sb := rfl
@[simp] theorem skipIf_c (s : State) (b : Bool) : (s.skipIf b).c = s.c := rfl
@[simp] theorem skipIf_skip (s : State) (b : Bool) : (s.skipIf b).skip = (if b then true else s.skip) := rfl
@[simp] theorem skipIf_pc (s : State) (b : Bool) : (s.skipIf b).pc = s.pc := rfl
@[simp] theorem skipIf_fpc (s : State) (b : Bool) : (s.skipIf b).fpc = s.fpc := rfl
@[simp] theorem skipIf_stack (s : State) (b : Bool) : (s.skipIf b).stack = s.stack := rfl
@[simp] theorem skipIf_ram (s : State) (b : Bool) : (s.skipIf b).ram = s.ram := rfl
@[simp] theorem skipIf_cyc (s : State) (b : Bool) : (s.skipIf b).cyc = s.cyc := rfl
@[simp] theorem skipIf_port0 (s : State) (b : Bool) : (s.skipIf b).port0 = s.port0 := rfl
@[simp] theorem skipIf_port1 (s : State) (b : Bool) : (s.skipIf b).port1 = s.port1 := rfl
@[simp] theorem skipIf_port2 (s : State) (b : Bool) : (s.skipIf b).port2 = s.port2 := rfl
@[simp] theorem skipIf_hiz (s : State) (b : Bool) : (s.skipIf b).hiz = s.hiz := rfl
@[simp] theorem skipIf_fault (s : State) (b : Bool) : (s.skipIf b).fault = s.fault := rfl
@[simp] theorem skipIf_events (s : State) (b : Bool) : (s.skipIf b).events = s.events := rfl
@[simp] theorem skipIf_cfg (s : State) (b : Bool) : (s.skipIf b).cfg = s.cfg := rfl
@[simp] theorem skipIf_host (s : State) (b : Bool) : (s.skipIf b).host = s.host := rfl
@[simp] theorem skipIf_ended (s : State) (b : Bool) : (s.skipIf b).ended = s.ended := rfl

@[simp] theorem xorBm_a (s : State) (m : BitVec 2) : (s.xorBm m).a = s.a := rfl
@[simp] theorem xorBm_x (s : State) (m : BitVec 2) : (s.xorBm m).x = s.x := rfl
@[simp] theorem xorBm_bm (s : State) (m : BitVec 2) : (s.xorBm m).bm = (s.bm ^^^ m.setWidth 4) := rfl
@[simp] theorem xorBm_bl (s : State) (m : BitVec 2) : (s.xorBm m).bl = s.bl := rfl
@[simp] theorem xorBm_sb (s : State) (m : BitVec 2) : (s.xorBm m).sb = s.sb := rfl
@[simp] theorem xorBm_c (s : State) (m : BitVec 2) : (s.xorBm m).c = s.c := rfl
@[simp] theorem xorBm_skip (s : State) (m : BitVec 2) : (s.xorBm m).skip = s.skip := rfl
@[simp] theorem xorBm_pc (s : State) (m : BitVec 2) : (s.xorBm m).pc = s.pc := rfl
@[simp] theorem xorBm_fpc (s : State) (m : BitVec 2) : (s.xorBm m).fpc = s.fpc := rfl
@[simp] theorem xorBm_stack (s : State) (m : BitVec 2) : (s.xorBm m).stack = s.stack := rfl
@[simp] theorem xorBm_ram (s : State) (m : BitVec 2) : (s.xorBm m).ram = s.ram := rfl
@[simp] theorem xorBm_cyc (s : State) (m : BitVec 2) : (s.xorBm m).cyc = s.cyc := rfl
@[simp] theorem xorBm_port0 (s : State) (m : BitVec 2) : (s.xorBm m).port0 = s.port0 := rfl
@[simp] theorem xorBm_port1 (s : State) (m : BitVec 2) : (s.xorBm m).port1 = s.port1 := rfl
@[simp] theorem xorBm_port2 (s : State) (m : BitVec 2) : (s.xorBm m).port2 = s.port2 := rfl
@[simp] theorem xorBm_hiz (s : State) (m : BitVec 2) : (s.xorBm m).hiz = s.hiz := rfl
@[simp] theorem xorBm_fault (s : State) (m : BitVec 2) : (s.xorBm m).fault = s.fault := rfl
@[simp] theorem xorBm_events (s : State) (m : BitVec 2) : (s.xorBm m).events = s.events := rfl
@[simp] theorem xorBm_cfg (s : State) (m : BitVec 2) : (s.xorBm m).cfg = s.cfg := rfl
@[simp] theorem xorBm_host (s : State) (m : BitVec 2) : (s.xorBm m).host = s.host := rfl
@[simp] theorem xorBm_ended (s : State) (m : BitVec 2) : (s.xorBm m).ended = s.ended := rfl

@[simp] theorem incBl_a (s : State) : (s.incBl).a = s.a := rfl
@[simp] theorem incBl_x (s : State) : (s.incBl).x = s.x := rfl
@[simp] theorem incBl_bm (s : State) : (s.incBl).bm = s.bm := rfl
@[simp] theorem incBl_bl (s : State) : (s.incBl).bl = (narrow (s.bl.toNat + 1)) := rfl
@[simp] theorem incBl_sb (s : State) : (s.incBl).sb = s.sb := rfl
@[simp] theorem incBl_c (s : State) : (s.incBl).c = s.c := rfl
@[simp] theorem incBl_skip (s : State) : (s.incBl).skip = (if narrow (s.bl.toNat + 1) == 0#4 then true else s.skip) := rfl
@[simp] theorem incBl_pc (s : State) : (s.incBl).pc = s.pc := rfl
@[simp] theorem incBl_fpc (s : State) : (s.incBl).fpc = s.fpc := rfl
@[simp] theorem incBl_stack (s : State) : (s.incBl).stack = s.stack := rfl
@[simp] theorem incBl_ram (s : State) : (s.incBl).ram = s.ram := rfl
@[simp] theorem incBl_cyc (s : State) : (s.incBl).cyc = s.cyc := rfl
@[simp] theorem incBl_port0 (s : State) : (s.incBl).port0 = s.port0 := rfl
@[simp] theorem incBl_port1 (s : State) : (s.incBl).port1 = s.port1 := rfl
@[simp] theorem incBl_port2 (s : State) : (s.incBl).port2 = s.port2 := rfl
@[simp] theorem incBl_hiz (s : State) : (s.incBl).hiz = s.hiz := rfl
@[simp] theorem incBl_fault (s : State) : (s.incBl).fault = s.fault := rfl
@[simp] theorem incBl_events (s : State) : (s.incBl).events = s.events := rfl
@[simp] theorem incBl_cfg (s : State) : (s.incBl).cfg = s.cfg := rfl
@[simp] theorem incBl_host (s : State) : (s.incBl).host = s.host := rfl
@[simp] theorem incBl_ended (s : State) : (s.incBl).ended = s.ended := rfl

@[simp] theorem decBl_a (s : State) : (s.decBl).a = s.a := rfl
@[simp] theorem decBl_x (s : State) : (s.decBl).x = s.x := rfl
@[simp] theorem decBl_bm (s : State) : (s.decBl).bm = s.bm := rfl
@[simp] theorem decBl_bl (s : State) : (s.decBl).bl = (narrow (s.bl.toNat + 15)) := rfl
@[simp] theorem decBl_sb (s : State) : (s.decBl).sb = s.sb := rfl
@[simp] theorem decBl_c (s : State) : (s.decBl).c = s.c := rfl
@[simp] theorem decBl_skip (s : State) : (s.decBl).skip = (if narrow (s.bl.toNat + 15) == 15#4 then true else s.skip) := rfl
@[simp] theorem decBl_pc (s : State) : (s.decBl).pc = s.pc := rfl
@[simp] theorem decBl_fpc (s : State) : (s.decBl).fpc = s.fpc := rfl
@[simp] theorem decBl_stack (s : State) : (s.decBl).stack = s.stack := rfl
@[simp] theorem decBl_ram (s : State) : (s.decBl).ram = s.ram := rfl
@[simp] theorem decBl_cyc (s : State) : (s.decBl).cyc = s.cyc := rfl
@[simp] theorem decBl_port0 (s : State) : (s.decBl).port0 = s.port0 := rfl
@[simp] theorem decBl_port1 (s : State) : (s.decBl).port1 = s.port1 := rfl
@[simp] theorem decBl_port2 (s : State) : (s.decBl).port2 = s.port2 := rfl
@[simp] theorem decBl_hiz (s : State) : (s.decBl).hiz = s.hiz := rfl
@[simp] theorem decBl_fault (s : State) : (s.decBl).fault = s.fault := rfl
@[simp] theorem decBl_events (s : State) : (s.decBl).events = s.events := rfl
@[simp] theorem decBl_cfg (s : State) : (s.decBl).cfg = s.cfg := rfl
@[simp] theorem decBl_host (s : State) : (s.decBl).host = s.host := rfl
@[simp] theorem decBl_ended (s : State) : (s.decBl).ended = s.ended := rfl

@[simp] theorem capture_a (s : State) : (s.capture).a = s.a := rfl
@[simp] theorem capture_x (s : State) : (s.capture).x = s.x := rfl
@[simp] theorem capture_bm (s : State) : (s.capture).bm = s.bm := rfl
@[simp] theorem capture_bl (s : State) : (s.capture).bl = s.bl := rfl
@[simp] theorem capture_sb (s : State) : (s.capture).sb = s.sb := rfl
@[simp] theorem capture_c (s : State) : (s.capture).c = s.c := rfl
@[simp] theorem capture_skip (s : State) : (s.capture).skip = s.skip := rfl
@[simp] theorem capture_pc (s : State) : (s.capture).pc = s.pc := rfl
@[simp] theorem capture_fpc (s : State) : (s.capture).fpc = (s.pc) := rfl
@[simp] theorem capture_stack (s : State) : (s.capture).stack = s.stack := rfl
@[simp] theorem capture_ram (s : State) : (s.capture).ram = s.ram := rfl
@[simp] theorem capture_cyc (s : State) : (s.capture).cyc = s.cyc := rfl
@[simp] theorem capture_port0 (s : State) : (s.capture).port0 = s.port0 := rfl
@[simp] theorem capture_port1 (s : State) : (s.capture).port1 = s.port1 := rfl
@[simp] theorem capture_port2 (s : State) : (s.capture).port2 = s.port2 := rfl
@[simp] theorem capture_hiz (s : State) : (s.capture).hiz = s.hiz := rfl
@[simp] theorem capture_fault (s : State) : (s.capture).fault = s.fault := rfl
@[simp] theorem capture_events (s : State) : (s.capture).events = s.events := rfl
@[simp] theorem capture_cfg (s : State) : (s.capture).cfg = s.cfg := rfl
@[simp] theorem capture_host (s : State) : (s.capture).host = s.host := rfl
@[simp] theorem capture_ended (s : State) : (s.capture).ended = s.ended := rfl

@[simp] theorem advancePc_a (s : State) : (s.advancePc).a = s.a := rfl
@[simp] theorem advancePc_x (s : State) : (s.advancePc).x = s.x := rfl
@[simp] theorem advancePc_bm (s : State) : (s.advancePc).bm = s.bm := rfl
@[simp] theorem advancePc_bl (s : State) : (s.advancePc).bl = s.bl := rfl
@[simp] theorem advancePc_sb (s : State) : (s.advancePc).sb = s.sb := rfl
@[simp] theorem advancePc_c (s : State) : (s.advancePc).c = s.c := rfl
@[simp] theorem advancePc_skip (s : State) : (s.advancePc).skip = s.skip := rfl
@[simp] theorem advancePc_pc (s : State) : (s.advancePc).pc = (advance s.pc) := rfl
@[simp] theorem advancePc_fpc (s : State) : (s.advancePc).fpc = s.fpc := rfl
@[simp] theorem advancePc_stack (s : State) : (s.advancePc).stack = s.stack := rfl
@[simp] theorem advancePc_ram (s : State) : (s.advancePc).ram = s.ram := rfl
@[simp] theorem advancePc_cyc (s : State) : (s.advancePc).cyc = s.cyc := rfl
@[simp] theorem advancePc_port0 (s : State) : (s.advancePc).port0 = s.port0 := rfl
@[simp] theorem advancePc_port1 (s : State) : (s.advancePc).port1 = s.port1 := rfl
@[simp] theorem advancePc_port2 (s : State) : (s.advancePc).port2 = s.port2 := rfl
@[simp] theorem advancePc_hiz (s : State) : (s.advancePc).hiz = s.hiz := rfl
@[simp] theorem advancePc_fault (s : State) : (s.advancePc).fault = s.fault := rfl
@[simp] theorem advancePc_events (s : State) : (s.advancePc).events = s.events := rfl
@[simp] theorem advancePc_cfg (s : State) : (s.advancePc).cfg = s.cfg := rfl
@[simp] theorem advancePc_host (s : State) : (s.advancePc).host = s.host := rfl
@[simp] theorem advancePc_ended (s : State) : (s.advancePc).ended = s.ended := rfl

@[simp] theorem count_a (s : State) (n : Nat) : (s.count n).a = s.a := rfl
@[simp] theorem count_x (s : State) (n : Nat) : (s.count n).x = s.x := rfl
@[simp] theorem count_bm (s : State) (n : Nat) : (s.count n).bm = s.bm := rfl
@[simp] theorem count_bl (s : State) (n : Nat) : (s.count n).bl = s.bl := rfl
@[simp] theorem count_sb (s : State) (n : Nat) : (s.count n).sb = s.sb := rfl
@[simp] theorem count_c (s : State) (n : Nat) : (s.count n).c = s.c := rfl
@[simp] theorem count_skip (s : State) (n : Nat) : (s.count n).skip = s.skip := rfl
@[simp] theorem count_pc (s : State) (n : Nat) : (s.count n).pc = s.pc := rfl
@[simp] theorem count_fpc (s : State) (n : Nat) : (s.count n).fpc = s.fpc := rfl
@[simp] theorem count_stack (s : State) (n : Nat) : (s.count n).stack = s.stack := rfl
@[simp] theorem count_ram (s : State) (n : Nat) : (s.count n).ram = s.ram := rfl
@[simp] theorem count_cyc (s : State) (n : Nat) : (s.count n).cyc = (s.cyc + n) := rfl
@[simp] theorem count_port0 (s : State) (n : Nat) : (s.count n).port0 = s.port0 := rfl
@[simp] theorem count_port1 (s : State) (n : Nat) : (s.count n).port1 = s.port1 := rfl
@[simp] theorem count_port2 (s : State) (n : Nat) : (s.count n).port2 = s.port2 := rfl
@[simp] theorem count_hiz (s : State) (n : Nat) : (s.count n).hiz = s.hiz := rfl
@[simp] theorem count_fault (s : State) (n : Nat) : (s.count n).fault = s.fault := rfl
@[simp] theorem count_events (s : State) (n : Nat) : (s.count n).events = s.events := rfl
@[simp] theorem count_cfg (s : State) (n : Nat) : (s.count n).cfg = s.cfg := rfl
@[simp] theorem count_host (s : State) (n : Nat) : (s.count n).host = s.host := rfl
@[simp] theorem count_ended (s : State) (n : Nat) : (s.count n).ended = s.ended := rfl

@[simp] theorem suppress_a (s : State) : (s.suppress).a = s.a := rfl
@[simp] theorem suppress_x (s : State) : (s.suppress).x = s.x := rfl
@[simp] theorem suppress_bm (s : State) : (s.suppress).bm = s.bm := rfl
@[simp] theorem suppress_bl (s : State) : (s.suppress).bl = s.bl := rfl
@[simp] theorem suppress_sb (s : State) : (s.suppress).sb = s.sb := rfl
@[simp] theorem suppress_c (s : State) : (s.suppress).c = s.c := rfl
@[simp] theorem suppress_skip (s : State) : (s.suppress).skip = (false) := rfl
@[simp] theorem suppress_pc (s : State) : (s.suppress).pc = s.pc := rfl
@[simp] theorem suppress_fpc (s : State) : (s.suppress).fpc = s.fpc := rfl
@[simp] theorem suppress_stack (s : State) : (s.suppress).stack = s.stack := rfl
@[simp] theorem suppress_ram (s : State) : (s.suppress).ram = s.ram := rfl
@[simp] theorem suppress_cyc (s : State) : (s.suppress).cyc = s.cyc := rfl
@[simp] theorem suppress_port0 (s : State) : (s.suppress).port0 = s.port0 := rfl
@[simp] theorem suppress_port1 (s : State) : (s.suppress).port1 = s.port1 := rfl
@[simp] theorem suppress_port2 (s : State) : (s.suppress).port2 = s.port2 := rfl
@[simp] theorem suppress_hiz (s : State) : (s.suppress).hiz = s.hiz := rfl
@[simp] theorem suppress_fault (s : State) : (s.suppress).fault = s.fault := rfl
@[simp] theorem suppress_events (s : State) : (s.suppress).events = s.events := rfl
@[simp] theorem suppress_cfg (s : State) : (s.suppress).cfg = s.cfg := rfl
@[simp] theorem suppress_host (s : State) : (s.suppress).host = s.host := rfl
@[simp] theorem suppress_ended (s : State) : (s.suppress).ended = s.ended := rfl

@[simp] theorem portRead1_a (s : State) : (s.portRead1.2).a = s.a := rfl
@[simp] theorem portRead1_x (s : State) : (s.portRead1.2).x = s.x := rfl
@[simp] theorem portRead1_bm (s : State) : (s.portRead1.2).bm = s.bm := rfl
@[simp] theorem portRead1_bl (s : State) : (s.portRead1.2).bl = s.bl := rfl
@[simp] theorem portRead1_sb (s : State) : (s.portRead1.2).sb = s.sb := rfl
@[simp] theorem portRead1_c (s : State) : (s.portRead1.2).c = s.c := rfl
@[simp] theorem portRead1_skip (s : State) : (s.portRead1.2).skip = s.skip := rfl
@[simp] theorem portRead1_pc (s : State) : (s.portRead1.2).pc = s.pc := rfl
@[simp] theorem portRead1_fpc (s : State) : (s.portRead1.2).fpc = s.fpc := rfl
@[simp] theorem portRead1_stack (s : State) : (s.portRead1.2).stack = s.stack := rfl
@[simp] theorem portRead1_ram (s : State) : (s.portRead1.2).ram = s.ram := rfl
@[simp] theorem portRead1_cyc (s : State) : (s.portRead1.2).cyc = s.cyc := rfl
@[simp] theorem portRead1_port0 (s : State) : (s.portRead1.2).port0 = s.port0 := rfl
@[simp] theorem portRead1_port1 (s : State) : (s.portRead1.2).port1 = (s.port1Level) := rfl
@[simp] theorem portRead1_port2 (s : State) : (s.portRead1.2).port2 = s.port2 := rfl
@[simp] theorem portRead1_hiz (s : State) : (s.portRead1.2).hiz = s.hiz := rfl
@[simp] theorem portRead1_fault (s : State) : (s.portRead1.2).fault = s.fault := rfl
@[simp] theorem portRead1_events (s : State) : (s.portRead1.2).events = s.events := rfl
@[simp] theorem portRead1_cfg (s : State) : (s.portRead1.2).cfg = s.cfg := rfl
@[simp] theorem portRead1_host (s : State) : (s.portRead1.2).host = s.host := rfl
@[simp] theorem portRead1_ended (s : State) : (s.portRead1.2).ended = s.ended := rfl

end Sys2Proof.Machine.State
end

