-- ==== Sys2Proof/Laws/Ops.lean ====
section
/-! SUPPORT. One lemma per shared operation: everything it can do. -/

namespace Sys2Proof.Machine

/-! ### Pointer and nibble arithmetic -/

@[simp] theorem joinNibbles_toNat (hi lo : Nibble) : (joinNibbles hi lo).toNat = 16 * hi.toNat + lo.toNat := by
  revert hi lo
  decide +revert

@[simp] theorem highNibble_toNat (v : Byte) : (highNibble v).toNat = v.toNat / 16 := by
  have := v.isLt
  simp [highNibble, Nat.shiftRight_eq_div_pow]
  omega

@[simp] theorem lowNibble_toNat (v : Byte) : (lowNibble v).toNat = v.toNat % 16 := by
  simp [lowNibble]

@[simp] theorem narrow_toNat (n : Nat) : (narrow n).toNat = n % 16 := by
  simp [narrow]

theorem b_toNat (s : State) : s.b.toNat = 16 * s.bm.toNat + s.bl.toNat := joinNibbles_toNat _ _

/-- `B` addresses RAM exactly when `BM` is 0 to 3 (spec R23, R52). -/
theorem b_inRam (s : State) : s.b.toNat < ramCells ↔ s.bm.toNat < 4 := by
  have := s.bl.isLt
  rw [b_toNat, ramCells]
  omega

/-! ### RAM, stack, targets -/

theorem memRead_ok {s : State} {b : Byte} (h : b.toNat < ramCells) : s.memRead b = .ok (Mem.read s.ram b.toNat) :=
  if_neg (by omega)

theorem memRead_error {s : State} {b : Byte} (h : ramCells ≤ b.toNat) : s.memRead b = .error (.ramRange b) := if_pos h

theorem memWrite_ok {s : State} {b : Byte} (v : Nibble) (h : b.toNat < ramCells) :
    s.memWrite b v = .ok { s with ram := Mem.write s.ram b.toNat v } :=
  if_neg (by omega)

theorem memWrite_error {s : State} {b : Byte} (v : Nibble) (h : ramCells ≤ b.toNat) :
    s.memWrite b v = .error (.ramRange b) := if_pos h

/-- The exchange of `A` with the cell at `B`. -/
theorem exchange_ok {s : State} (h : s.bm.toNat < 4) :
    s.exchange = .ok { s with a := Mem.read s.ram s.b.toNat, ram := Mem.write s.ram s.b.toNat s.a } := by
  have hb := (b_inRam s).mpr h
  simp [State.exchange, memRead_ok hb, memWrite_ok s.a hb, bind, Except.bind, pure, Except.pure]

theorem exchange_error {s : State} (h : 4 ≤ s.bm.toNat) : s.exchange = .error (.ramRange s.b) := by
  have hb : ramCells ≤ s.b.toNat := by have := b_inRam s; omega
  simp [State.exchange, memRead_error hb, bind, Except.bind]

theorem push_ok {s : State} (v : PC) (h : s.stack.length ≠ stackDepth) :
    s.push v = .ok { s with stack := v :: s.stack } := if_neg h

theorem push_error {s : State} (v : PC) (h : s.stack.length = stackDepth) :
    s.push v = .error (.stackOverflow s.fpc) := if_pos h

theorem pop_cons {s : State} {v : PC} {rest : List PC} (h : s.stack = v :: rest) :
    s.pop = .ok (v, { s with stack := rest }) := by simp [State.pop, h]

theorem pop_nil {s : State} (h : s.stack = []) : s.pop = .error (.stackUnderflow s.fpc) := by simp [State.pop, h]

theorem longTarget_ok {tp : SixBits} (ta : SixBits) (h : tp.toNat < 16) :
    longTarget tp ta = .ok ⟨tp.setWidth 4, ta⟩ := if_neg (by omega)

theorem longTarget_error {tp : SixBits} (ta : SixBits) (h : 16 ≤ tp.toNat) :
    longTarget tp ta = .error (.romPage tp ta) := if_pos (by omega)

@[simp] theorem finish_ok (s t : State) : s.finish (.ok t) = .next t := rfl

@[simp] theorem finish_error (s : State) (f : Fault) : s.finish (.error f) = .next (s.raise f) := rfl

/-- What an instruction's end can be: its own result or the starting state with `FAULT` set. -/
theorem finish_cases {s t : State} {r : Except Fault State} (h : s.finish r = .next t) :
    r = .ok t ∨ ∃ f, r = .error f ∧ t = s.raise f := by
  cases r with
  | ok u => simp_all [State.finish]
  | error f => exact .inr ⟨f, rfl, by simpa using h.symm⟩

/-! ### Fetching -/

@[simp] theorem advance_page (pc : PC) : (advance pc).page = pc.page := rfl

@[simp] theorem advance_addr_toNat (pc : PC) : (advance pc).addr.toNat = (pc.addr.toNat + 1) % 64 := by
  simp [advance]

theorem romIndex_lt (pc : PC) : romIndex pc < romBytes := by
  have := pc.page.isLt
  have := pc.addr.isLt
  simp only [romIndex, romBytes]
  omega

/-- Two places of ROM are one byte only if they are one place. -/
theorem romIndex_inj {p q : PC} (h : romIndex p = romIndex q) : p = q := by
  obtain ⟨pp, pa⟩ := p
  obtain ⟨qp, qa⟩ := q
  have := pa.isLt
  have := qa.isLt
  simp only [romIndex] at h
  have hp : pp.toNat = qp.toNat := by omega
  have ha : pa.toNat = qa.toNat := by omega
  rw [BitVec.eq_of_toNat_eq hp, BitVec.eq_of_toNat_eq ha]

/-! ### The host -/

/-- What one host action leaves: everything but ports, RAM, `SKIP` and `ended` (spec R206). -/
theorem hostAct_frame (s : State) (act : HostAction) :
    ∃ p0 p1 p2 r k e, s.hostAct act =
      { s with port0 := p0, port1 := p1, port2 := p2, ram := r, skip := k, ended := e } := by
  cases act with
  | port n v =>
    simp only [State.hostAct]
    split
    · exact ⟨_, _, _, _, _, _, rfl⟩
    split
    · exact ⟨_, _, _, _, _, _, rfl⟩
    split
    · exact ⟨_, _, _, _, _, _, rfl⟩
    split <;> exact ⟨_, _, _, _, _, _, rfl⟩
  | poke addr val =>
    simp only [State.hostAct]
    split <;> exact ⟨_, _, _, _, _, _, rfl⟩
  | skip => exact ⟨_, _, _, _, _, _, rfl⟩
  | quit => exact ⟨_, _, _, _, _, _, rfl⟩
  | look => exact ⟨_, _, _, _, _, _, rfl⟩
  | debugger => exact ⟨_, _, _, _, _, _, rfl⟩

/-- What the actions of one observation point can do together: the end of the run at once, or a first action and the rest. -/
theorem hostActs_cons (s : State) (act : HostAction) (rest : List HostAction) :
    s.hostActs (act :: rest) = if act = .quit then s.hostAct .quit else (s.hostAct act).hostActs rest := by
  cases act <;> simp [State.hostActs]

/-- Without a host the observation point does nothing (spec R105). -/
theorem observe_none {s : State} (h : s.host = []) : s.observe = s := by simp [State.observe, h]

theorem hostAct_ramWf {s : State} (act : HostAction) (h : Mem.wf ramCells s.ram = true) :
    Mem.wf ramCells (s.hostAct act).ram = true := by
  cases act with
  | port n v =>
    simp only [State.hostAct]
    split
    · exact h
    split
    · exact h
    split
    · exact h
    split <;> exact h
  | poke addr val =>
    simp only [State.hostAct]
    split
    · exact Mem.wf_write _ (by omega) h
    · exact h
  | skip => exact h
  | quit => exact h
  | look => exact h
  | debugger => exact h

end Sys2Proof.Machine
end

