-- ==== Sys2Proof/Laws/Fetch.lean ====
section
/-! SUPPORT. The opcode table and the fetch: what a row says, and what a fetch gives. -/

namespace Sys2Proof.Machine

open Sys2Proof.Safety

/-- But for byte 0x00, which `NOP` and the `ADX` range share (spec R83), no opcode byte has two rows (spec R85). -/
theorem opcodeTable_rows_disjoint :
    ∀ op : Byte, op ≠ 0 → (opcodeTable.filter (·.covers op)).length ≤ 1 := by decide

theorem rowOf_mem {op : Byte} {row : OpcodeRow} (h : rowOf op = some row) : row ∈ opcodeTable :=
  List.mem_of_find?_eq_some h

/-- A row's length is the instruction's, whatever the bytes. -/
theorem row_length {row : OpcodeRow} (h : row ∈ opcodeTable) (op arg : Byte) :
    row.length = bytesOf (row.build op arg) := by
  simp only [opcodeTable, controlRows, loadRows, arithRows, portRows, nopRow, List.mem_cons, List.mem_append,
    List.not_mem_nil, or_false] at h
  rcases h with rfl | ((h | h) | h) | h
  · rfl
  all_goals
    repeat' rcases h with rfl | h
    all_goals rfl

/-- A one-byte row does not look at the argument. -/
theorem row_ignores_arg {row : OpcodeRow} (h : row ∈ opcodeTable) (h1 : row.length ≠ 2) (op x y : Byte) :
    row.build op x = row.build op y := by
  simp only [opcodeTable, controlRows, loadRows, arithRows, portRows, nopRow, List.mem_cons, List.mem_append,
    List.not_mem_nil, or_false] at h
  rcases h with rfl | ((h | h) | h) | h
  · rfl
  all_goals
    repeat' rcases h with rfl | h
    all_goals first | rfl | exact absurd rfl h1

/-- What a fetch gives when the two bytes at `PC` decode: the instruction, its length, and the state with `PC` past it. -/
theorem fetch_of_fetches {s : State} {i : Instr} (h : fetches s i) :
    ∃ op arg, s.fetch = .instruction i op arg (bytesOf i) { s with pc := advanceBy s.pc (bytesOf i) } := by
  simp only [fetches, decodeOp, Option.map_eq_some_iff] at h
  obtain ⟨row, hrow, rfl⟩ := h
  have hlen := row_length (rowOf_mem hrow) (s.romRead s.pc) (s.romRead (advance s.pc))
  by_cases h2 : row.length = 2
  · refine ⟨s.romRead s.pc, s.romRead (advance s.pc), ?_⟩
    simp only [State.fetch, hrow, h2, if_true, ← hlen]
    rfl
  · have h1 : row.length = 1 := by
      rw [hlen] at h2 ⊢
      revert h2
      cases row.build (s.romRead s.pc) (s.romRead (advance s.pc)) <;> simp [bytesOf]
    refine ⟨s.romRead s.pc, 0, ?_⟩
    have hb : bytesOf (row.build (s.romRead s.pc) (s.romRead (advance s.pc))) = 1 := by rw [← hlen, h1]
    simp only [State.fetch, hrow, h2, if_false, hb]
    rw [row_ignores_arg (rowOf_mem hrow) h2 _ 0 (s.romRead (advance s.pc))]
    rfl

/-- Every fetch is of an undefined byte or of the instruction the two bytes decode to. -/
theorem fetch_cases (s : State) :
    (rowOf (s.romRead s.pc) = none ∧ s.fetch = .undefinedByte (s.romRead s.pc) { s with pc := advance s.pc }) ∨
    ∃ i op arg, fetches s i ∧ s.fetch = .instruction i op arg (bytesOf i) { s with pc := advanceBy s.pc (bytesOf i) } := by
  cases hrow : rowOf (s.romRead s.pc) with
  | none => exact .inl ⟨rfl, by simp only [State.fetch, hrow]; rfl⟩
  | some row =>
    refine .inr ⟨row.build (s.romRead s.pc) (s.romRead (advance s.pc)), ?_⟩
    have hf : fetches s (row.build (s.romRead s.pc) (s.romRead (advance s.pc))) := by simp [fetches, decodeOp, hrow]
    obtain ⟨op, arg, h⟩ := fetch_of_fetches hf
    exact ⟨op, arg, hf, h⟩

end Sys2Proof.Machine
end

