-- ==== Sys2Proof/Laws/Decode.lean ====
section
/-! SUPPORT. What the decoder answers, case by case. -/

namespace Sys2Proof

open Sys2Proof.Safety Sys2Proof.Machine

theorem decode_undefined {op : Byte} (rest : List Byte) (h : rowOf op = none) :
    decode (op :: rest) = .error (.undefinedOpcode op) := by simp [decode, h]

theorem decode_oneByte {op : Byte} {row : OpcodeRow} (rest : List Byte) (h : rowOf op = some row) (h1 : row.length ≠ 2) :
    decode (op :: rest) = .ok (row.build op 0, rest) := by simp [decode, h, OpcodeRow.take, h1]

theorem decode_twoBytes {op : Byte} {row : OpcodeRow} (arg : Byte) (more : List Byte) (h : rowOf op = some row)
    (h2 : row.length = 2) : decode (op :: arg :: more) = .ok (row.build op arg, more) := by
  simp [decode, h, OpcodeRow.take, h2]

theorem decode_truncated {op : Byte} {row : OpcodeRow} (h : rowOf op = some row) (h2 : row.length = 2) :
    decode [op] = .error (.missingArgument op) := by simp [decode, h, OpcodeRow.take, h2]

/-- A decoding that succeeds took one byte of a one-byte row or two bytes of a two-byte row. -/
theorem decode_cases {bytes rest : List Byte} {i : Instr} (h : decode bytes = .ok (i, rest)) :
    ∃ op row, rowOf op = some row ∧
      ((row.length ≠ 2 ∧ bytes = op :: rest ∧ i = row.build op 0) ∨
        (row.length = 2 ∧ ∃ arg, bytes = op :: arg :: rest ∧ i = row.build op arg)) := by
  match bytes with
  | [] => cases h
  | op :: tail =>
    cases hrow : rowOf op with
    | none => rw [decode_undefined tail hrow] at h; cases h
    | some row =>
      refine ⟨op, row, hrow, ?_⟩
      by_cases h2 : row.length = 2
      · match tail with
        | [] => rw [decode_truncated hrow h2] at h; cases h
        | arg :: more =>
          rw [decode_twoBytes arg more hrow h2] at h
          cases h
          exact .inr ⟨h2, arg, rfl, rfl⟩
      · rw [decode_oneByte tail hrow h2] at h
        cases h
        exact .inl ⟨h2, rfl, rfl⟩

end Sys2Proof
end

