-- ==== Sys2Proof/Laws/PerInstr.lean ====
section
/-! SUPPORT. Per instruction: the length the opcode byte gives is the number of bytes the encoder writes (spec R80, R92). -/

namespace Sys2Proof.Laws.OpcodeLength

/-- The first byte of the encoding alone gives its length. -/
def Statement (i : Instr) : Prop := opcodeLength ((encode i).headD 0) = some (encode i).length

theorem tr (a : SixBits) : Statement (.tr a) := by
  show opcodeLength ((encode (.tr a)).headD 0) = some 1
  revert a
  decide

theorem tl (p a : SixBits) : Statement (.tl p a) := by
  show opcodeLength ((0xE0#8 : Byte) ||| (p >>> 2).setWidth 8) = some 2
  revert p
  decide

theorem trs (t : BitVec 5) : Statement (.trs t) := by
  show opcodeLength ((encode (.trs t)).headD 0) = some 1
  revert t
  decide

theorem call (p a : SixBits) : Statement (.call p a) := by
  show opcodeLength ((0xF0#8 : Byte) ||| (p >>> 2).setWidth 8) = some 2
  revert p
  decide

theorem rtn : Statement .rtn := by
  show opcodeLength ((encode .rtn).headD 0) = some 1
  decide

theorem lax (n : Nibble) : Statement (.lax n) := by
  show opcodeLength ((encode (.lax n)).headD 0) = some 1
  revert n
  decide

theorem lbmx (n : Nibble) : Statement (.lbmx n) := by
  show opcodeLength ((encode (.lbmx n)).headD 0) = some 1
  revert n
  decide

theorem lblx (n : Nibble) : Statement (.lblx n) := by
  show opcodeLength ((encode (.lblx n)).headD 0) = some 1
  revert n
  decide

theorem lda (m : BitVec 2) : Statement (.lda m) := by
  show opcodeLength ((encode (.lda m)).headD 0) = some 1
  revert m
  decide

theorem exc (m : BitVec 2) : Statement (.exc m) := by
  show opcodeLength ((encode (.exc m)).headD 0) = some 1
  revert m
  decide

theorem exci (m : BitVec 2) : Statement (.exci m) := by
  show opcodeLength ((encode (.exci m)).headD 0) = some 1
  revert m
  decide

theorem excd (m : BitVec 2) : Statement (.excd m) := by
  show opcodeLength ((encode (.excd m)).headD 0) = some 1
  revert m
  decide

theorem exax : Statement .exax := by
  show opcodeLength ((encode .exax).headD 0) = some 1
  decide

theorem atx : Statement .atx := by
  show opcodeLength ((encode .atx).headD 0) = some 1
  decide

theorem exbm : Statement .exbm := by
  show opcodeLength ((encode .exbm).headD 0) = some 1
  decide

theorem exbl : Statement .exbl := by
  show opcodeLength ((encode .exbl).headD 0) = some 1
  decide

theorem ex : Statement .ex := by
  show opcodeLength ((encode .ex).headD 0) = some 1
  decide

theorem adx (n : Nibble) : Statement (.adx n) := by
  show opcodeLength ((encode (.adx n)).headD 0) = some 1
  revert n
  decide

theorem add : Statement .add := by
  show opcodeLength ((encode .add).headD 0) = some 1
  decide

theorem adc : Statement .adc := by
  show opcodeLength ((encode .adc).headD 0) = some 1
  decide

theorem coma : Statement .coma := by
  show opcodeLength ((encode .coma).headD 0) = some 1
  decide

theorem incb : Statement .incb := by
  show opcodeLength ((encode .incb).headD 0) = some 1
  decide

theorem decb : Statement .decb := by
  show opcodeLength ((encode .decb).headD 0) = some 1
  decide

theorem tc : Statement .tc := by
  show opcodeLength ((encode .tc).headD 0) = some 1
  decide

theorem tm (k : BitVec 2) : Statement (.tm k) := by
  show opcodeLength ((encode (.tm k)).headD 0) = some 1
  revert k
  decide

theorem tabl : Statement .tabl := by
  show opcodeLength ((encode .tabl).headD 0) = some 1
  decide

theorem tpb (p : BitVec 2) : Statement (.tpb p) := by
  show opcodeLength ((encode (.tpb p)).headD 0) = some 1
  revert p
  decide

theorem rm (k : BitVec 2) : Statement (.rm k) := by
  show opcodeLength ((encode (.rm k)).headD 0) = some 1
  revert k
  decide

theorem sc : Statement .sc := by
  show opcodeLength ((encode .sc).headD 0) = some 1
  decide

theorem rc : Statement .rc := by
  show opcodeLength ((encode .rc).headD 0) = some 1
  decide

theorem outl : Statement .outl := by
  show opcodeLength ((encode .outl).headD 0) = some 1
  decide

theorem out : Statement .out := by
  show opcodeLength ((encode .out).headD 0) = some 1
  decide

theorem pat (x : Byte) : Statement (.pat x) := by
  show opcodeLength (0x6A#8 : Byte) = some 2
  decide

theorem dta (x : Byte) : Statement (.dta x) := by
  show opcodeLength (0x69#8 : Byte) = some 2
  decide

theorem nop : Statement .nop := by
  show opcodeLength ((encode .nop).headD 0) = some 1
  decide

end Sys2Proof.Laws.OpcodeLength
end

