-- ==== Sys2Proof/Laws/Step.lean ====
section
/-! SUPPORT. What a step can do, said once. -/

namespace Sys2Proof.Machine

open Sys2Proof.Safety

/-- What the actions of one observation point leave: everything but ports, RAM, `SKIP` and `ended` (spec R206). -/
theorem hostActs_frame (acts : List HostAction) (s : State) :
    ∃ p0 p1 p2 r k e, s.hostActs acts =
      { s with port0 := p0, port1 := p1, port2 := p2, ram := r, skip := k, ended := e } := by
  induction acts generalizing s with
  | nil => exact ⟨_, _, _, _, _, _, rfl⟩
  | cons act rest ih =>
    rw [hostActs_cons]
    split
    · exact hostAct_frame s .quit
    · obtain ⟨p0, p1, p2, r, k, e, h⟩ := hostAct_frame s act
      obtain ⟨p0', p1', p2', r', k', e', h'⟩ := ih (s.hostAct act)
      exact ⟨p0', p1', p2', r', k', e', by rw [h', h]⟩

theorem hostActs_ramWf (acts : List HostAction) {s : State} (h : Mem.wf ramCells s.ram = true) :
    Mem.wf ramCells (s.hostActs acts).ram = true := by
  induction acts generalizing s with
  | nil => exact h
  | cons act rest ih =>
    rw [hostActs_cons]
    split
    · exact h
    · exact ih (hostAct_ramWf act h)

/-- What the observation point leaves: everything but ports, RAM, `SKIP`, `ended` and the host's list (spec R105, R206). -/
theorem observe_frame (s : State) :
    ∃ p0 p1 p2 r k e l, s.observe =
      { s with port0 := p0, port1 := p1, port2 := p2, ram := r, skip := k, ended := e, host := l } := by
  unfold State.observe
  split
  · exact ⟨_, _, _, _, _, _, _, rfl⟩
  · rename_i acts later _
    obtain ⟨p0, p1, p2, r, k, e, h⟩ := hostActs_frame acts { s with host := later }
    exact ⟨p0, p1, p2, r, k, e, later, h⟩

theorem observe_ramWf {s : State} (h : Mem.wf ramCells s.ram = true) : Mem.wf ramCells s.observe.ram = true := by
  unfold State.observe
  split
  · exact h
  · exact hostActs_ramWf _ h

/-- The state at the observation point of a step that fetched `i`. -/
def atObservation (s : State) (i : Instr) : State :=
  State.observe { s with fpc := s.pc, pc := advanceBy s.pc (bytesOf i) }

/-- The four ways a step answers a next state: an undefined byte, the host's end of the run, a suppressed instruction, an
executed one. -/
theorem step_cases {s t : State} (h : step s = .next t) :
    s.fault = none ∧ s.ended = false ∧
    ((rowOf (s.romRead s.pc) = none ∧
        t = { s with fpc := s.pc, pc := advance s.pc, fault := some (.unknownOpcode (s.romRead s.pc) s.pc) }) ∨
      ∃ i, fetches s i ∧
        (((atObservation s i).ended = true ∧ t = atObservation s i) ∨
          ((atObservation s i).ended = false ∧ (atObservation s i).skip = true ∧
            t = { atObservation s i with cyc := (atObservation s i).cyc + bytesOf i, skip := false }) ∨
          ((atObservation s i).ended = false ∧ (atObservation s i).skip = false ∧
            exec i { atObservation s i with cyc := (atObservation s i).cyc + bytesOf i } = .next t))) := by
  unfold step at h
  split at h
  · cases h
  rename_i hf
  split at h
  · cases h
  rename_i he
  refine ⟨hf, by simpa using he, ?_⟩
  rcases fetch_cases s.capture with ⟨hrow, hfetch⟩ | ⟨i, op, arg, hi, hfetch⟩
  · rw [hfetch] at h
    exact .inl ⟨hrow, (Host.Outcome.next.inj h).symm⟩
  · rw [hfetch] at h
    refine .inr ⟨i, hi, ?_⟩
    simp only [State.runFetched] at h
    change (if (atObservation s i).ended = true then _ else _) = _ at h
    split at h
    · exact .inl ⟨‹_›, (Host.Outcome.next.inj h).symm⟩
    · rename_i hne
      change (if (atObservation s i).skip = true then _ else _) = _ at h
      split at h
      · exact .inr (.inl ⟨by simpa using hne, ‹_›, (Host.Outcome.next.inj h).symm⟩)
      · rename_i hns
        exact .inr (.inr ⟨by simpa using hne, by simpa using hns, h⟩)

/-- A run goes on from the next state. -/
theorem run_of_step {s t : State} (h : step s = .next t) (k : Nat) : run (k + 1) s = run k t := by
  simp [run, h]

/-- A run of one step more that ends in a state took that step. -/
theorem run_cases {k : Nat} {s u : State} (h : run (k + 1) s = .next u) :
    ∃ t, step s = .next t ∧ run k t = .next u := by
  simp only [run] at h
  split at h
  · exact ⟨_, ‹_›, h⟩
  · cases h
  · cases h

/-- `run` is the host's run of the machine. -/
theorem run_eq_core (k : Nat) (s : State) : run k s = core.run k s := by
  induction k generalizing s with
  | zero => rfl
  | succ k ih =>
    simp only [Host.Core.run]
    cases h : step s with
    | next t => rw [run_of_step h, ih, show core.step s = .next t from h]
    | fault f => simp [run, h, show core.step s = .fault f from h]; rfl
    | refused r => simp [run, h, show core.step s = .refused r from h]; rfl

end Sys2Proof.Machine
end

