-- ==== Sys2Proof/Tests/Slice0.lean ====
section
/-! SUPPORT. Tests: ill-formed terms, decoding words written out from the spec, one step of each instruction (vectors of
spec/95_test_vectors.md, named beside each), and for every statement with hypotheses a state and operands that meet them. -/

namespace Sys2Proof.Tests

open Sys2Proof.Machine Sys2Proof.Safety

/-! ### Well-formedness (R83, R91) -/

theorem test_wf_refuses_adx_zero : (Instr.adx 0).wellFormed = false := by decide

theorem test_wf_takes_adx_one : (Instr.adx 1).wellFormed = true ∧ (Instr.tl 63 0).wellFormed = true ∧
    (Instr.tpb 3).wellFormed = true := by decide

/-! ### Decoding (section 3 of the vectors; the bit patterns are the spec's table R85) -/

/-- What the bytes decode to, if all of them are used. -/
def reads1 (bytes : List Byte) (i : Instr) : Bool :=
  match decode bytes with
  | .ok (j, rest) => decide (j = i ∧ rest = [])
  | .error _ => false

theorem test_decode_control :
    reads1 [0b10000000#8] (.tr 0x00) ∧ reads1 [0b10111111#8] (.tr 0x3F) ∧ reads1 [0x91#8] (.tr 0x11) ∧
    reads1 [0b11000000#8] (.trs 0) ∧ reads1 [0b11011111#8] (.trs 31) ∧ reads1 [0xC5#8] (.trs 5) ∧
    reads1 [0xE0#8, 0x50#8] (.tl 1 0x10) ∧ reads1 [0xE3#8, 0xFF#8] (.tl 15 0x3F) ∧ reads1 [0xE1#8, 0x85#8] (.tl 6 0x05) ∧
    reads1 [0xE4#8, 0x00#8] (.tl 16 0) ∧ reads1 [0xF0#8, 0x90#8] (.call 2 0x10) ∧ reads1 [0xF2#8, 0x85#8] (.call 10 0x05) ∧
    reads1 [0xF3#8, 0xC0#8] (.call 15 0) ∧ reads1 [0b01111101#8] .rtn := by decide

theorem test_decode_load :
    reads1 [0b00011010#8] (.lax 10) ∧ reads1 [0b00110011#8] (.lbmx 3) ∧ reads1 [0b00100111#8] (.lblx 7) ∧
    reads1 [0b01010010#8] (.lda 2) ∧ reads1 [0b01010101#8] (.exc 1) ∧ reads1 [0b01011011#8] (.exci 3) ∧
    reads1 [0b01011100#8] (.excd 0) ∧ reads1 [0x64#8] .exax ∧ reads1 [0x65#8] .atx ∧ reads1 [0x66#8] .exbm ∧
    reads1 [0x67#8] .exbl ∧ reads1 [0x68#8] .ex := by decide

theorem test_decode_arith :
    reads1 [0b00000001#8] (.adx 1) ∧ reads1 [0b00001111#8] (.adx 15) ∧ reads1 [0x00#8] .nop ∧ reads1 [0x7A#8] .add ∧
    reads1 [0x7B#8] .adc ∧ reads1 [0x79#8] .coma ∧ reads1 [0x78#8] .incb ∧ reads1 [0x7C#8] .decb ∧ reads1 [0x6E#8] .tc ∧
    reads1 [0b01001000#8] (.tm 0) ∧ reads1 [0b01001010#8] (.tm 2) ∧ reads1 [0x6B#8] .tabl ∧
    reads1 [0b01000011#8] (.rm 3) ∧ reads1 [0x61#8] .sc ∧ reads1 [0x60#8] .rc := by decide

theorem test_decode_port :
    reads1 [0b01001101#8] (.tpb 1) ∧ reads1 [0b01001111#8] (.tpb 3) ∧ reads1 [0x71#8] .outl ∧ reads1 [0x75#8] .out ∧
    reads1 [0x6A#8, 0x00#8] (.pat 0) ∧ reads1 [0x69#8, 0x7F#8] (.dta 0x7F) := by decide

/-- "239 of the 256 byte values are defined opcodes", 34 of them of two bytes and 205 of one. -/
theorem test_decode_counts :
    ((List.range 256).filter fun n => opcodeLength (BitVec.ofNat 8 n) == some 2).length = 34 ∧
    ((List.range 256).filter fun n => opcodeLength (BitVec.ofNat 8 n) == some 1).length = 205 := by decide +kernel

theorem test_decode_refuses : (match decode [0x44#8, 0x00#8] with
    | .error e => decide (e = .undefinedOpcode 0x44)
    | .ok _ => false) = true := by decide

theorem test_encode : encode (.tl 6 0x05) = [0xE1#8, 0x85#8] ∧ encode (.call 15 0) = [0xF3#8, 0xC0#8] ∧
    encode (.trs 5) = [0xC5#8] ∧ encode (.tr 0x11) = [0x91#8] := by decide

/-- R90: `E1 85` is `TL 6:0x05`, `C5` is `TRS 5` (the entry number), `7D` is `RTN`. -/
theorem test_text : (Instr.tl 6 5).text = "TL 6:5" ∧ (Instr.trs 5).text = "TRS 5" ∧ Instr.rtn.text = "RTN" := by decide +kernel

/-! ### One step -/

/-- A machine after reset with the given ROM bytes; its secret bits (5, 0) and (5, 3) are 1, every other is 0. -/
def boot (rom : List Host.Cell) : State := State.ofConfig { rom := rom, samples := none, secret := 0x90000, p1PreLevel := 6 }

/-- One byte at (0, 00). -/
def at0 (op : Byte) : State := boot [(0, op)]

/-- The step answers exactly this next state. -/
def leaves (s t : State) : Bool :=
  match step s with
  | .next u => decide (u = t)
  | .fault _ | .refused _ => false

/-- `s` past the one-byte instruction at (0, 00). -/
def past1 (s : State) : State := { s with pc := ⟨0, 1⟩, cyc := s.cyc + 1 }

/-- `s` past the two-byte instruction at (0, 00). -/
def past2 (s : State) : State := { s with pc := ⟨0, 2⟩, cyc := s.cyc + 2 }

/-- Four saved PCs. -/
def full : List PC := [⟨0, 1⟩, ⟨0, 2⟩, ⟨0, 3⟩, ⟨0, 4⟩]

/-- E1, E4, E5. -/
theorem test_skip_one_byte :
    leaves { at0 0x0F with a := 15, skip := true } (past1 { at0 0x0F with a := 15 }) ∧
    leaves { at0 0x7D with skip := true } (past1 (at0 0x7D)) ∧
    leaves { at0 0x48 with skip := true, bm := 9 } (past1 { at0 0x48 with bm := 9 }) := by decide

/-- E2, E3, E8. -/
theorem test_skip_two_bytes :
    leaves { boot [(0, 0xE1), (1, 0x85), (2, 0x15)] with skip := true } (past2 (boot [(0, 0xE1), (1, 0x85), (2, 0x15)])) ∧
    leaves { at0 0xF0 with skip := true, stack := full } (past2 { at0 0xF0 with stack := full }) ∧
    leaves { at0 0x69 with skip := true, bm := 5 } (past2 { at0 0x69 with bm := 5 }) := by decide

/-- E9, E11, E12. -/
theorem test_undefined_byte :
    leaves { at0 0x44 with skip := true }
      { at0 0x44 with skip := true, pc := ⟨0, 1⟩, fault := some (.unknownOpcode 0x44 ⟨0, 0⟩) } ∧
    leaves (at0 0x7F) { at0 0x7F with pc := ⟨0, 1⟩, fault := some (.unknownOpcode 0x7F ⟨0, 0⟩) } ∧
    leaves { boot [(0x13F, 0x62)] with pc := ⟨4, 0x3F⟩ }
      { boot [(0x13F, 0x62)] with pc := ⟨4, 0⟩, fpc := ⟨4, 0x3F⟩, fault := some (.unknownOpcode 0x62 ⟨4, 0x3F⟩) } := by decide

/-- T1, T2. -/
theorem test_tr :
    leaves { boot [(0x17F, 0xBF)] with pc := ⟨5, 0x3F⟩ } { boot [(0x17F, 0xBF)] with pc := ⟨5, 0x3F⟩, fpc := ⟨5, 0x3F⟩, cyc := 1 } ∧
    leaves { boot [(0xD0, 0x80)] with pc := ⟨3, 0x10⟩ } { boot [(0xD0, 0x80)] with pc := ⟨3, 0⟩, fpc := ⟨3, 0x10⟩, cyc := 1 } := by
  decide

/-- T3, T6, and E14: the argument byte across the page end. -/
theorem test_tl :
    leaves (boot [(0, 0xE3), (1, 0xFF)]) { boot [(0, 0xE3), (1, 0xFF)] with pc := ⟨15, 0x3F⟩, cyc := 2 } ∧
    leaves (at0 0xE4) { past2 (at0 0xE4) with fault := some (.romPage 16 0) } ∧
    leaves { boot [(0xC0, 0x41), (0xFF, 0xE2)] with pc := ⟨3, 0x3F⟩ }
      { boot [(0xC0, 0x41), (0xFF, 0xE2)] with pc := ⟨9, 1⟩, fpc := ⟨3, 0x3F⟩, cyc := 2 } := by decide

/-- T9, T10, T11. -/
theorem test_trs :
    leaves { boot [(0x1E0, 0xDF)] with pc := ⟨7, 0x20⟩ }
      { boot [(0x1E0, 0xDF)] with pc := ⟨1, 0x3E⟩, fpc := ⟨7, 0x20⟩, stack := [⟨7, 0x21⟩], cyc := 1 } ∧
    leaves { boot [(0xBF, 0xC5)] with pc := ⟨2, 0x3F⟩ }
      { boot [(0xBF, 0xC5)] with pc := ⟨1, 0x0A⟩, fpc := ⟨2, 0x3F⟩, stack := [⟨2, 0⟩], cyc := 1 } ∧
    leaves { at0 0xC5 with stack := full } { past1 { at0 0xC5 with stack := full } with fault := some (.stackOverflow ⟨0, 0⟩) } := by
  decide

/-- T12, T14, T15. -/
theorem test_call :
    leaves { boot [(0x3E, 0xF3), (0x3F, 0xC0)] with pc := ⟨0, 0x3E⟩ }
      { boot [(0x3E, 0xF3), (0x3F, 0xC0)] with pc := ⟨15, 0⟩, fpc := ⟨0, 0x3E⟩, stack := [⟨0, 0⟩], cyc := 2 } ∧
    leaves { at0 0xF4 with stack := full } { past2 { at0 0xF4 with stack := full } with fault := some (.stackOverflow ⟨0, 0⟩) } ∧
    leaves (at0 0xF4) { past2 (at0 0xF4) with fault := some (.romPage 16 0) } := by decide

/-- T16, T17. -/
theorem test_rtn :
    leaves (at0 0x7D) { past1 (at0 0x7D) with fault := some (.stackUnderflow ⟨0, 0⟩) } ∧
    leaves { at0 0x7D with stack := [⟨3, 0x11⟩, ⟨0, 9⟩] } { at0 0x7D with pc := ⟨3, 0x11⟩, stack := [⟨0, 9⟩], cyc := 1 } := by decide

/-- L1, L2. -/
theorem test_lax : leaves { at0 0x10 with a := 9 } (past1 (at0 0x10)) ∧ leaves (at0 0x1F) (past1 { at0 0x1F with a := 15 }) := by
  decide

/-- L4. -/
theorem test_lbmx : leaves (at0 0x3C) (past1 { at0 0x3C with bm := 12 }) := by decide

/-- L3. -/
theorem test_lblx : leaves (at0 0x2E) (past1 { at0 0x2E with bl := 14 }) := by decide

/-- M2, M3, M10. -/
theorem test_lda :
    leaves { at0 0x53 with bm := 3, bl := 15, ram := [(63, 6)], a := 1 } (past1 { at0 0x53 with bl := 15, ram := [(63, 6)], a := 6 }) ∧
    leaves { at0 0x52 with bm := 1, bl := 15, ram := [(0x1F, 9)] }
      (past1 { at0 0x52 with bm := 3, bl := 15, ram := [(0x1F, 9)], a := 9 }) ∧
    leaves { at0 0x50 with bm := 4, a := 1 } (past1 { at0 0x50 with bm := 4, a := 1, fault := some (.ramRange 0x40) }) := by decide

/-- M4, M5, M11 with the exchange. -/
theorem test_exc :
    leaves { at0 0x54 with bl := 1, ram := [(1, 7)], a := 1 } (past1 { at0 0x54 with bl := 1, ram := [(1, 1)], a := 7 }) ∧
    leaves { at0 0x57 with bm := 1, bl := 4, a := 9, ram := [(0x14, 2)] }
      (past1 { at0 0x57 with bm := 2, bl := 4, a := 2, ram := [(0x14, 9)] }) ∧
    leaves { at0 0x55 with bm := 15 } (past1 { at0 0x55 with bm := 15, fault := some (.ramRange 0xF0) }) := by decide

/-- M6, M7, M12. -/
theorem test_exci :
    leaves { at0 0x58 with bl := 7, a := 1, ram := [(7, 14)] } (past1 { at0 0x58 with bl := 8, a := 14, ram := [(7, 1)] }) ∧
    leaves { at0 0x5A with bm := 3, bl := 15, a := 1, ram := [(63, 14)] }
      (past1 { at0 0x5A with bm := 1, bl := 0, a := 14, ram := [(63, 1)], skip := true }) ∧
    leaves { at0 0x58 with bm := 7, bl := 15, a := 4 }
      (past1 { at0 0x58 with bm := 7, bl := 15, a := 4, fault := some (.ramRange 0x7F) }) := by decide

/-- M8, M9. -/
theorem test_excd :
    leaves { at0 0x5C with a := 4, ram := [(0, 6)] } (past1 { at0 0x5C with a := 6, ram := [(0, 4)], bl := 15, skip := true }) ∧
    leaves { at0 0x5F with bm := 2, bl := 15, a := 4, ram := [(0x2F, 6)] }
      (past1 { at0 0x5F with bm := 1, bl := 14, a := 6, ram := [(0x2F, 4)] }) := by decide

/-- L5. -/
theorem test_exax : leaves { at0 0x64 with a := 3, x := 10 } (past1 { at0 0x64 with a := 10, x := 3 }) := by decide

/-- L6. -/
theorem test_atx : leaves { at0 0x65 with a := 2, x := 9 } (past1 { at0 0x65 with a := 2, x := 2 }) := by decide

/-- L8. -/
theorem test_exbm : leaves { at0 0x66 with a := 12 } (past1 { at0 0x66 with bm := 12 }) := by decide

/-- L9: no skip on the wrap-like values. -/
theorem test_exbl : leaves { at0 0x67 with bl := 15 } (past1 { at0 0x67 with a := 15 }) := by decide

/-- L10, L12. -/
theorem test_ex :
    leaves { at0 0x68 with bm := 2, bl := 9, sb := 0x3C } (past1 { at0 0x68 with bm := 3, bl := 12, sb := 0x29 }) ∧
    leaves { at0 0x68 with sb := 0xF7 } (past1 { at0 0x68 with bm := 15, bl := 7 }) := by decide

/-- A1, A3, A4, A6. -/
theorem test_adx :
    leaves (at0 0x0F) (past1 { at0 0x0F with a := 15 }) ∧ leaves { at0 0x01 with a := 15 } (past1 { at0 0x01 with skip := true }) ∧
    leaves { at0 0x0F with a := 15 } (past1 { at0 0x0F with a := 14, skip := true }) ∧
    leaves { at0 0x08 with a := 7 } (past1 { at0 0x08 with a := 15 }) := by decide

/-- A8, A8b, A22. -/
theorem test_add :
    leaves { at0 0x7A with a := 9, ram := [(0, 7)], c := true } (past1 { at0 0x7A with ram := [(0, 7)], c := true }) ∧
    leaves { at0 0x7A with a := 15, ram := [(0, 15)] } (past1 { at0 0x7A with a := 14, ram := [(0, 15)] }) ∧
    leaves { at0 0x7A with bm := 5 } (past1 { at0 0x7A with bm := 5, fault := some (.ramRange 0x50) }) := by decide

/-- A9, A11, A12, A13. -/
theorem test_adc :
    leaves { at0 0x7B with a := 15, ram := [(0, 15)], c := true }
      (past1 { at0 0x7B with a := 15, ram := [(0, 15)], c := true, skip := true }) ∧
    leaves { at0 0x7B with c := true } (past1 { at0 0x7B with a := 1 }) ∧
    leaves { at0 0x7B with a := 15, c := true } (past1 { at0 0x7B with c := true, skip := true }) ∧
    leaves { at0 0x7B with a := 8, ram := [(0, 7)] } (past1 { at0 0x7B with a := 15, ram := [(0, 7)] }) := by decide

/-- A15, A17. -/
theorem test_coma :
    leaves (at0 0x79) (past1 { at0 0x79 with a := 15 }) ∧ leaves { at0 0x79 with a := 10 } (past1 { at0 0x79 with a := 5 }) := by
  decide

/-- A18, A19. -/
theorem test_incb :
    leaves { at0 0x78 with bl := 15, bm := 9 } (past1 { at0 0x78 with bm := 9, skip := true }) ∧
    leaves { at0 0x78 with bl := 14 } (past1 { at0 0x78 with bl := 15 }) := by decide

/-- A20, A21. -/
theorem test_decb :
    leaves { at0 0x7C with bm := 9 } (past1 { at0 0x7C with bl := 15, bm := 9, skip := true }) ∧
    leaves { at0 0x7C with bl := 1 } (past1 (at0 0x7C)) := by decide

/-- B1, B2. -/
theorem test_tc :
    leaves { at0 0x6E with c := true } (past1 { at0 0x6E with c := true, skip := true }) ∧
    leaves (at0 0x6E) (past1 (at0 0x6E)) := by decide

/-- B3, B4, B6. -/
theorem test_tm :
    leaves { at0 0x4B with bm := 3, bl := 5, ram := [(0x35, 8)] }
      (past1 { at0 0x4B with bm := 3, bl := 5, ram := [(0x35, 8)], skip := true }) ∧
    leaves { at0 0x48 with bm := 3, bl := 5, ram := [(0x35, 8)] } (past1 { at0 0x48 with bm := 3, bl := 5, ram := [(0x35, 8)] }) ∧
    leaves { at0 0x48 with bm := 4 } (past1 { at0 0x48 with bm := 4, fault := some (.ramRange 0x40) }) := by decide

/-- B7, B8. -/
theorem test_tabl :
    leaves (at0 0x6B) (past1 { at0 0x6B with skip := true }) ∧
    leaves { at0 0x6B with a := 15, bl := 14 } (past1 { at0 0x6B with a := 15, bl := 14 }) := by decide

/-- B9, B10, B11, B13. -/
theorem test_rm :
    leaves { at0 0x40 with ram := [(0, 5)] } (past1 { at0 0x40 with ram := [(0, 4)] }) ∧
    leaves { at0 0x43 with ram := [(0, 5)] } (past1 { at0 0x43 with ram := [(0, 5)] }) ∧
    leaves { at0 0x41 with bm := 3, bl := 15, ram := [(63, 15)] } (past1 { at0 0x41 with bm := 3, bl := 15, ram := [(63, 13)] }) ∧
    leaves { at0 0x41 with bm := 8 } (past1 { at0 0x41 with bm := 8, fault := some (.ramRange 0x80) }) := by decide

/-- B14. -/
theorem test_sc_rc :
    leaves (at0 0x61) (past1 { at0 0x61 with c := true }) ∧ leaves { at0 0x60 with c := true } (past1 (at0 0x60)) := by decide

/-- P1, P2, P14, P15. -/
theorem test_tpb :
    leaves { at0 0x4C with port0 := 9 } (past1 { at0 0x4C with port0 := 9, skip := true, events := [.portTest 0 9] }) ∧
    leaves (at0 0x4E) (past1 { at0 0x4E with events := [.portTest 2 0] }) ∧
    leaves { at0 0x4E with port2 := 8, hiz := true }
      (past1 { at0 0x4E with port2 := 8, hiz := true, skip := true, events := [.portTest 2 8] }) ∧
    leaves (at0 0x4F) (past1 { at0 0x4F with fault := some (.portIndex 3) }) := by decide

/-- P3 (first step), P4 (first step): the toggle. -/
theorem test_tpb_toggle :
    leaves (at0 0x4D) (past1 { at0 0x4D with port1 := 1, skip := true, events := [.portTest 1 1] }) ∧
    leaves { at0 0x4D with port1 := 7 } (past1 { at0 0x4D with events := [.portTest 1 0] }) := by decide

/-- The table of the source's own example (S7). -/
def table7 : List Sample := [⟨0, 0⟩, ⟨100, 1⟩, ⟨300, 0⟩]

/-- S7: cycles 50, 150, 350; P6, P7: cycles 100, 99; P11: before the first sample; P12: the last of equal timestamps. -/
theorem test_samples :
    sampleLevel 6 table7 50 = 0 ∧ sampleLevel 6 table7 150 = 1 ∧ sampleLevel 6 table7 350 = 0 ∧ sampleLevel 6 table7 100 = 1 ∧
    sampleLevel 6 table7 99 = 0 ∧ sampleLevel 6 [⟨10, 1⟩] 4 = 6 ∧ sampleLevel 6 [⟨5, 1⟩, ⟨5, 0⟩, ⟨5, 9⟩] 5 = 9 := by decide

/-- R201: 100 samples are accepted, 101 are not; equal timestamps are accepted, falling ones are not. -/
theorem test_samples_wf :
    samplesWf (some (List.replicate 100 ⟨5, 1⟩)) = true ∧ samplesWf (some (List.replicate 101 ⟨5, 1⟩)) = false ∧
    samplesWf (some [⟨5, 1⟩, ⟨4, 0⟩]) = false := by decide

/-- P6 as a step: the sample is taken at the cycle count the step has already advanced. -/
theorem test_tpb_sample :
    leaves { at0 0x4D with cfg := { (at0 0x4D).cfg with samples := some table7 }, cyc := 99 }
      (past1 { at0 0x4D with cfg := { (at0 0x4D).cfg with samples := some table7 }, cyc := 99, port1 := 1, skip := true,
                             events := [.portTest 1 1] }) := by decide

/-- P16, P17, P18, P19. -/
theorem test_dta :
    leaves { at0 0x69 with bm := 2, bl := 3 } (past2 { at0 0x69 with bm := 2, bl := 3 }) ∧
    leaves { at0 0x69 with bm := 8, bl := 3 } (past2 { at0 0x69 with bm := 8, bl := 3 }) ∧
    leaves { at0 0x69 with bm := 5, bl := 3 } (past2 { at0 0x69 with bm := 5, bl := 3, skip := true }) ∧
    leaves { at0 0x69 with bm := 5, bl := 4 } (past2 { at0 0x69 with bm := 5, bl := 4 }) := by decide

/-- P21. -/
theorem test_outl : leaves { at0 0x71 with a := 5, hiz := true } (past1 { at0 0x71 with a := 5, hiz := true, events := [.outL 5] }) := by
  decide

/-- P22, P23, P24, P26. -/
theorem test_out :
    leaves { at0 0x75 with bl := 15 } (past1 { at0 0x75 with bl := 15, hiz := true, events := [.outHiz true] }) ∧
    leaves { at0 0x75 with bl := 15, a := 8, hiz := true } (past1 { at0 0x75 with bl := 15, a := 8, events := [.outHiz false] }) ∧
    leaves { at0 0x75 with bl := 2, a := 5, hiz := true }
      (past1 { at0 0x75 with bl := 2, a := 5, hiz := true, port2 := 5, events := [.outPort 5] }) ∧
    leaves { at0 0x75 with a := 5 } (past1 { at0 0x75 with a := 5, events := [.outOther 0 5] }) := by decide

/-- P24's pin. -/
theorem test_pin : ({ at0 0 with port2 := 5, hiz := true } : State).pin2 = .undriven ∧
    ({ at0 0 with port2 := 5 } : State).pin2 = .level 5 := by decide

/-- P28, P29. -/
theorem test_pat :
    leaves { boot [(0, 0x6A), (1, 0xFF), (0x125, 0xA7)] with x := 14, a := 5 }
      (past2 { boot [(0, 0x6A), (1, 0xFF), (0x125, 0xA7)] with x := 10, a := 7 }) ∧
    leaves { boot [(0, 0x6A), (0x13F, 0x0F)] with x := 3, a := 15 } (past2 { boot [(0, 0x6A), (0x13F, 0x0F)] with a := 15 }) := by
  decide

/-- P31: `PAT` reads its own opcode byte. -/
theorem test_pat_own_byte :
    leaves { boot [(0x100, 0x6A), (0x101, 0x12)] with pc := ⟨4, 0⟩ }
      { boot [(0x100, 0x6A), (0x101, 0x12)] with pc := ⟨4, 2⟩, fpc := ⟨4, 0⟩, x := 6, a := 10, cyc := 2 } := by decide

/-- A7, E13: the byte 0x00 at the page end. -/
theorem test_nop : leaves { at0 0x00 with a := 9 } (past1 { at0 0x00 with a := 9 }) ∧
    leaves { boot [] with pc := ⟨6, 0x3F⟩ } { boot [] with pc := ⟨6, 0⟩, fpc := ⟨6, 0x3F⟩, cyc := 1 } := by decide

/-- R206: a host that pokes, forces a port and toggles `SKIP` at the observation point of `LAX 5`, which is then
suppressed. -/
theorem test_host :
    leaves { at0 0x15 with host := [[.poke 63 7, .port 1 9, .skip], []] }
      (past1 { at0 0x15 with host := [[]], ram := [(63, 7)], port1 := 9 }) := by decide

/-- R206 `q`: the run ends at the observation point, before the cycle count. -/
theorem test_host_quit :
    leaves { at0 0x15 with host := [[.quit, .skip]] } { at0 0x15 with pc := ⟨0, 1⟩, ended := true } := by decide

/-- S8: `TL 1:0x10` at (0, 00); at the next step the breakpoint on (1, 10) matches. -/
theorem test_breakpoint :
    (Breakpoint.atPc ⟨1, 0x10⟩).hits { boot [(0, 0xE0), (1, 0x50)] with pc := ⟨1, 0x11⟩, fpc := ⟨1, 0x10⟩, cyc := 2 } .nop = true ∧
    leaves (boot [(0, 0xE0), (1, 0x50)]) { boot [(0, 0xE0), (1, 0x50)] with pc := ⟨1, 0x10⟩, cyc := 2 } := by decide

/-! ### The statements' hypotheses are met: one theorem per statement that has any, one clause of it per clause of the
statement, at the ends of its range -/

theorem test_meets_DecodeOfEncodeIsIdentity : (Instr.adx 1).wellFormed = true ∧ (Instr.dta 0xFF).wellFormed = true := by decide

theorem test_meets_EncodeOfDecodeIsIdentity : decode [0xF3#8, 0xC0#8, 0x15#8] = .ok (.call 15 0, [0x15#8]) := rfl

theorem test_meets_LongFormsDecodeTheirTarget : 0xE0 ≤ (0xE0#8).toNat ∧ (0xEF#8).toNat < 0xF0 ∧ 0xE0 ≤ (0xFF#8).toNat := by decide

theorem test_meets_StepRunsTheDecodedInstruction : ∃ s i, running s ∧ s.host = [] ∧ s.skip = false ∧ fetches s i :=
  ⟨{ boot [(0, 0xF3), (0x3F, 0xF0)] with pc := ⟨0, 0x3F⟩ }, .call 3 0x33, ⟨rfl, rfl⟩, rfl, rfl, rfl⟩

theorem test_meets_StepWithHostRunsObservationFirst : ∃ s i, running s ∧ fetches s i ∧ s.host ≠ [] :=
  ⟨{ at0 0x15 with host := [[.skip, .poke 3 3]] }, .lax 5, ⟨rfl, rfl⟩, rfl, by decide⟩

theorem test_meets_SuppressedInstructionOnlyAdvances :
    ∃ s i, running s ∧ s.host = [] ∧ s.skip = true ∧ fetches s i ∧ faultOf s i ≠ none :=
  ⟨{ at0 0x7D with skip := true }, .rtn, ⟨rfl, rfl⟩, rfl, rfl, rfl, by decide⟩

theorem test_meets_CycleCountComesBeforeTheSkipGate :
    (∃ s i, running s ∧ fetches s i ∧ s.observe.ended = false ∧ s.observe.skip = true ∧ s.host = []) ∧
    (∃ s i, running s ∧ fetches s i ∧ s.observe.ended = false ∧ s.observe.skip = false ∧ s.host = []) ∧
    (∃ s i later, running s ∧ fetches s i ∧ s.host = [HostAction.skip] :: later ∧ s.skip = false ∧ s.observe.ended = false) ∧
    (∃ s i later, running s ∧ fetches s i ∧ s.host = [HostAction.skip] :: later ∧ s.skip = true ∧ bytesOf i = 2) :=
  ⟨⟨{ at0 0xF0 with skip := true }, .call 0 0, ⟨rfl, rfl⟩, rfl, rfl, rfl, rfl⟩, ⟨at0 0x15, .lax 5, ⟨rfl, rfl⟩, rfl, rfl, rfl, rfl⟩,
    ⟨{ at0 0x15 with host := [[.skip], [.quit]] }, .lax 5, [[.quit]], ⟨rfl, rfl⟩, rfl, rfl, rfl, rfl⟩,
    ⟨{ at0 0xF0 with skip := true, host := [[.skip]] }, .call 0 0, [], ⟨rfl, rfl⟩, rfl, rfl, rfl, rfl⟩⟩

theorem test_meets_UndefinedByteFaultsAtDecode :
    (∃ s, running s ∧ s.romRead s.pc = 0x44 ∧ s.skip = true ∧ s.host ≠ []) ∧ (∃ s, running s ∧ s.romRead s.pc = 0x7F) :=
  ⟨⟨{ at0 0x44 with skip := true, host := [[.quit]] }, ⟨rfl, rfl⟩, rfl, rfl, by decide⟩, ⟨at0 0x7F, ⟨rfl, rfl⟩, rfl⟩⟩

theorem test_meets_ObservationShowsEveryInstruction :
    (∃ s i, running s ∧ fetches s i ∧ bytesOf i = 1 ∧ s.skip = true) ∧ (∃ s i, running s ∧ fetches s i ∧ bytesOf i = 2) :=
  ⟨⟨{ at0 0x15 with skip := true }, .lax 5, ⟨rfl, rfl⟩, rfl, rfl, rfl⟩, ⟨boot [(0, 0x69), (1, 0x7F)], .dta 0x7F, ⟨rfl, rfl⟩, rfl, rfl⟩⟩

theorem test_meets_MachineStepsExactlyWhenRunning :
    ((at0 0).fault = none ∧ (at0 0).ended = false) ∧ ¬ (({ at0 0 with ended := true } : State).ended = false) ∧
    ¬ (({ at0 0 with fault := some (.portIndex 3) } : State).fault = none) := by decide

theorem test_meets_FaultedMachineHasNoStep :
    ({ at0 0 with fault := some (.portIndex 3) } : State).fault = some (.portIndex 3) ∧
    ({ at0 0 with ended := true } : State).fault = none ∧ ({ at0 0 with ended := true } : State).ended = true := by decide

theorem test_meets_CycleCounterAddsBytesFetched :
    (∃ s t i, fetches s i ∧ step s = .next t ∧ t.ended = false ∧ bytesOf i = 2 ∧ s.skip = true) ∧
    (∃ s t i, fetches s i ∧ step s = .next t ∧ t.ended = false ∧ bytesOf i = 1) :=
  ⟨⟨{ at0 0xF0 with skip := true }, _, .call 0 0, rfl, rfl, rfl, rfl, rfl⟩, ⟨at0 0x4F, _, .tpb 3, rfl, rfl, rfl, rfl⟩⟩

theorem test_meets_SkipsDoNotChain : ∃ s t i, s.host = [] ∧ fetches s i ∧ step s = .next t ∧ t.skip = true :=
  ⟨{ at0 0x0F with a := 1 }, _, .adx 15, rfl, rfl, rfl, rfl⟩

theorem test_meets_ZeroPageRunsForEver :
    ∃ s, running s ∧ s.host = [] ∧ s.skip = false ∧ ∀ a, s.romRead ⟨s.pc.page, a⟩ = 0 :=
  ⟨{ boot [] with pc := ⟨15, 0x3F⟩, a := 9 }, ⟨rfl, rfl⟩, rfl, rfl, fun _ => rfl⟩

theorem test_meets_PlacedWordIsExecutedNext :
    ∃ s, running s ∧ s.host = [] ∧ s.skip = false ∧ decodeTableWord 8 0x7D = some .rtn ∧
      decodeTableWord 16 0x85F2 = some (.call 10 5) :=
  ⟨{ boot [(0, 0x44)] with pc := ⟨15, 0x3F⟩ }, ⟨rfl, rfl⟩, rfl, rfl, rfl, rfl⟩

theorem test_meets_EveryStepKeepsTheInvariant : ∃ s t, Inv s ∧ step s = .next t ∧ s.stack.length = 3 ∧ t.stack.length = 4 :=
  ⟨{ at0 0xC5 with stack := [⟨0, 1⟩, ⟨0, 2⟩, ⟨0, 3⟩], ram := [(0, 1), (63, 2)] }, _, ⟨by decide, rfl, rfl, rfl⟩, rfl, rfl, rfl⟩

theorem test_meets_RomIsTheSameAtEveryPointOfARun : ∃ s t, run 2 s = .next t ∧ t.a = 5 :=
  ⟨boot [(0, 0x13), (1, 0x15)], _, rfl, rfl⟩

theorem test_meets_EventsAreOnlyAppended : ∃ s t, step s = .next t ∧ s.events ≠ [] ∧ t.events.length = 2 :=
  ⟨{ at0 0x71 with events := [.outL 1] }, _, rfl, by decide, rfl⟩

theorem test_meets_WithoutHostPortsChangeByInstructionOnly :
    (∃ s t, s.host = [] ∧ step s = .next t ∧ t.port2 ≠ s.port2) ∧ (∃ s t, s.host = [] ∧ step s = .next t ∧ t.port1 ≠ s.port1) :=
  ⟨⟨{ at0 0x75 with bl := 2, a := 5 }, _, rfl, rfl, by decide⟩, ⟨at0 0x4D, _, rfl, rfl, by decide⟩⟩

theorem test_meets_HostActionsDoWhatTheirCommandSays :
    (63 < 64 ∧ 15 < 16) ∧ (64 ≤ 64 ∨ 16 ≤ 0) ∧ (64 ≤ 0 ∨ 16 ≤ 16) ∧ (2 < 3 ∨ 16 ≤ 0) ∧ (2 < 0 ∨ 16 ≤ 16) ∧
    ((at0 0).hostAct (.poke 63 15)).ram = [(63, 15)] ∧ (at0 0).hostAct (.poke 64 0) = at0 0 ∧ (at0 0).hostAct (.port 3 0) = at0 0 ∧
    (at0 0).host = [] ∧ ({ at0 0 with host := [[.skip, .quit], []] } : State).host = [.skip, .quit] :: [[]] ∧
    HostAction.skip ≠ .quit := by
  decide

theorem test_meets_LaunchLaysOutTheImage :
    ((List.replicate 1024 0x00#8).length ≤ 1024 ∧ samplesWf (some table7) = true) ∧ 1024 < (List.replicate 1025 0x00#8).length ∧
    ([0x15#8].length ≤ 1024 ∧ samplesWf (some [⟨5, 1⟩, ⟨4, 0⟩]) = false) ∧ samplesWf (some [⟨5, 1⟩, ⟨5, 0⟩, ⟨5, 9⟩]) = true := by
  refine ⟨⟨?_, by decide⟩, ?_, by decide, by decide⟩
  · rw [List.length_replicate]
  · rw [List.length_replicate]; omega

theorem test_meets_ExecutionFaultsExactlyByTheTable :
    faultOf { at0 0 with bm := 4 } .add = some (.ramRange 0x40) ∧ faultOf { at0 0 with bm := 3 } .add = none ∧
    faultOf (at0 0) (.tl 16 0) = some (.romPage 16 0) ∧ faultOf (at0 0) (.tl 15 0) = none ∧
    faultOf { at0 0 with stack := full } (.call 16 0) = some (.stackOverflow ⟨0, 0⟩) ∧
    faultOf (at0 0) (.call 16 0) = some (.romPage 16 0) ∧ faultOf { at0 0 with stack := full } (.trs 0) = some (.stackOverflow ⟨0, 0⟩) ∧
    faultOf (at0 0) .rtn = some (.stackUnderflow ⟨0, 0⟩) ∧ faultOf (at0 0) (.tpb 3) = some (.portIndex 3) := by decide

theorem test_meets_InstructionWritesOnlyItsRow : ∃ s t, exec .adc s = .next t ∧ Field.ram ∉ writes .adc ∧ Field.ram ≠ .fault ∧ t.a ≠ s.a :=
  ⟨{ at0 0 with ram := [(0, 7)] }, _, rfl, by decide, by decide, by decide⟩

theorem test_meets_InstructionReadsOnlyItsRow : ∃ s₁ s₂ t₁ t₂, (∀ f, f ∈ reads (.adx 3) → agree s₁ s₂ f) ∧ s₁.fault = none ∧
    s₂.fault = none ∧ exec (.adx 3) s₁ = .next t₁ ∧ exec (.adx 3) s₂ = .next t₂ ∧ s₁.x ≠ s₂.x :=
  ⟨{ at0 0 with a := 14 }, { at0 0 with a := 14, x := 9, ram := [(5, 5)] }, _, _,
    fun f h => by simp only [reads, List.mem_singleton] at h; subst h; rfl, rfl, rfl, rfl, rfl, by decide⟩

theorem test_meets_OnlyLongTransfersChangeThePage : ∃ s t i, fetches s i ∧ step s = .next t ∧ t.pc.page ≠ s.pc.page :=
  ⟨boot [(0, 0xE3), (1, 0xFF)], _, .tl 15 0x3F, rfl, rfl, by decide⟩

theorem test_meets_PointerLeavesRamOnlyByThree : ∃ i s t, exec i s = .next t ∧ s.bm.toNat < 4 ∧ 4 ≤ t.bm.toNat :=
  ⟨.lbmx 4, { at0 0 with bm := 3 }, _, rfl, by decide, by decide⟩

theorem test_meets_JumpsWriteOnlyThePc : (15#6).toNat < 16 ∧ 16 ≤ (16#6).toNat ∧ 16 ≤ (63#6).toNat := by decide

theorem test_meets_ShortCallPushesAndGoesToPageOne :
    ({ at0 0 with stack := [⟨0, 2⟩, ⟨0, 3⟩, ⟨0, 4⟩] } : State).stack.length ≠ 4 ∧ ({ at0 0 with stack := full } : State).stack.length = 4 := by
  decide

theorem test_meets_LongCallChecksThenPushesThenJumps :
    ((at0 0).stack.length ≠ 4 ∧ (15#6).toNat < 16) ∧ ({ at0 0 with stack := full } : State).stack.length = 4 ∧
    (({ at0 0 with stack := [⟨0, 2⟩, ⟨0, 3⟩, ⟨0, 4⟩] } : State).stack.length ≠ 4 ∧ 16 ≤ (16#6).toNat) := by decide

theorem test_meets_ReturnPopsThePc :
    ({ at0 0 with stack := full } : State).stack = ⟨0, 1⟩ :: [⟨0, 2⟩, ⟨0, 3⟩, ⟨0, 4⟩] ∧ (at0 0).stack = [] := by decide

theorem test_meets_ReturnUndoesACall :
    (∃ (s t u : State) (i : Instr), ((∃ p a, i = .call p a) ∨ (∃ e, i = .trs e)) ∧ s.fault = none ∧ exec i s = .next t ∧ t.fault = none ∧
      u.stack = t.stack ∧ s.stack.length = 3) ∧
    (∃ (s t u : State) (i : Instr), ((∃ p a, i = .call p a) ∨ (∃ e, i = .trs e)) ∧ s.fault = none ∧ exec i s = .next t ∧ t.fault = none ∧
      u.stack = t.stack ∧ u.a ≠ t.a) :=
  ⟨⟨{ at0 0 with stack := [⟨0, 2⟩, ⟨0, 3⟩, ⟨0, 4⟩] }, _, _, .call 15 0, .inl ⟨_, _, rfl⟩, rfl, rfl, rfl, rfl, rfl⟩,
    ⟨at0 0, _, { at0 0 with a := 9, stack := [⟨0, 0⟩] }, .trs 31, .inr ⟨_, rfl⟩, rfl, rfl, rfl, rfl, by decide⟩⟩

theorem test_meets_RegisterMovesExchangeNibbles : ∃ i s t, (i = .exax ∨ i = .exbm ∨ i = .exbl) ∧ exec i s = .next t ∧ t ≠ s :=
  ⟨.exbl, { at0 0 with a := 5 }, _, .inr (.inr rfl), rfl, by decide⟩

/-- `BM` = 3, the last that addresses RAM: for `LoadFromRamReadsTheOldPointer`, `ExchangeSwapsAccumulatorAndCell`,
`ExchangeAndStepSkipsOnWrap`, `AddFromRamTouchesNoFlag`, `AddWithCarrySplitsTheExactSum`, `RamBitTestSetsOnlySkip` and
`RamBitResetClearsOneBit`. -/
theorem test_meets_ram_statements : ({ at0 0 with bm := 3, bl := 15, ram := [(63, 6)] } : State).bm.toNat < 4 ∧
    Mem.read ({ at0 0 with bm := 3, bl := 15, ram := [(63, 6)] } : State).ram 63 = 6 := by decide

theorem test_meets_RamInstructionsFaultOutsideRam :
    (touchesRam (.lda 0) = true ∧ 4 ≤ ({ at0 0 with bm := 4 } : State).bm.toNat) ∧
    (touchesRam (.rm 3) = true ∧ 4 ≤ ({ at0 0 with bm := 15 } : State).bm.toNat) := by decide

theorem test_meets_NopChangesNothing :
    ∃ s, running s ∧ s.host = [] ∧ s.skip = false ∧ s.romRead s.pc = 0 ∧ s.pc = ⟨6, 0x3F⟩ :=
  ⟨{ at0 0x15 with pc := ⟨6, 0x3F⟩ }, ⟨rfl, rfl⟩, rfl, rfl, rfl, rfl⟩

theorem test_meets_ToggleReadsAlternate :
    (∃ s t u : State, s.cfg.samples = none ∧ exec (.tpb 1) s = .next t ∧ u.port1 = t.port1 ∧ u.cfg = t.cfg ∧ s.port1 = 0 ∧ u ≠ t) ∧
    (∃ s t u : State, s.cfg.samples = none ∧ exec (.tpb 1) s = .next t ∧ u.port1 = t.port1 ∧ u.cfg = t.cfg ∧ s.port1 = 7) :=
  ⟨⟨at0 0, _, { at0 0 with port1 := 1 }, rfl, rfl, rfl, rfl, rfl, by decide⟩, ⟨{ at0 0 with port1 := 7 }, _, at0 0, rfl, rfl, rfl, rfl, rfl⟩⟩

theorem test_meets_SampleReadTakesTheLastQualifyingEntry :
    ∃ s : State, s.cfg.samples = some table7 ∧ table7 = [⟨0, 0⟩] ++ (⟨100, 1⟩ : Sample) :: [⟨300, 0⟩] ∧ 100 ≤ s.cyc ∧
      (∀ x ∈ [(⟨300, 0⟩ : Sample)], s.cyc < x.ts) ∧
    ∃ r : State, r.cfg.samples = some [⟨10, 1⟩] ∧ ∀ x ∈ [(⟨10, 1⟩ : Sample)], r.cyc < x.ts :=
  ⟨{ at0 0 with cfg := { (at0 0).cfg with samples := some table7 }, cyc := 100 }, rfl, rfl, by decide, by decide,
    { at0 0 with cfg := { (at0 0).cfg with samples := some [⟨10, 1⟩] }, cyc := 9 }, rfl, by decide⟩

theorem test_meets_OutputsBySelector :
    ({ at0 0 with bl := 15 } : State).bl.toNat = 15 ∧ ({ at0 0 with bl := 2 } : State).bl.toNat = 2 ∧
    (({ at0 0 with bl := 14 } : State).bl.toNat ≠ 15 ∧ ({ at0 0 with bl := 14 } : State).bl.toNat ≠ 2) := by decide

theorem test_meets_SecretBitTest :
    (4 ≤ ({ at0 0 with bm := 4 } : State).bm.toNat ∧ ({ at0 0 with bm := 4 } : State).bm.toNat ≤ 7) ∧
    (4 ≤ ({ at0 0 with bm := 7 } : State).bm.toNat ∧ ({ at0 0 with bm := 7 } : State).bm.toNat ≤ 7) ∧
    (({ at0 0 with bm := 3 } : State).bm.toNat < 4) ∧ 7 < ({ at0 0 with bm := 8 } : State).bm.toNat := by decide

end Sys2Proof.Tests
end

section
/-! The configuration, and with it ROM, is the same at every point of a run (spec R67). -/

namespace Sys2Proof.Machine

open Sys2Proof.Safety

/-! ### What a fetch depends on -/

/-- `RomRead` looks at nothing but the configuration. -/
theorem romRead_congr {s t : State} (hcfg : t.cfg = s.cfg) (pc : PC) : t.romRead pc = s.romRead pc := by
  simp only [State.romRead, hcfg]

/-- The fetch looks at nothing but the configuration and `PC`. -/
theorem fetches_congr {s t : State} (hcfg : t.cfg = s.cfg) (hpc : t.pc = s.pc) (i : Instr) :
    fetches t i ↔ fetches s i := by
  simp only [fetches, hpc, romRead_congr hcfg]

/-! ### Operations that may fault -/

/-- Where the operation does not fault, it leaves the configuration as it is in `s`. -/
def KeepsConfig (s : State) (r : Except Fault State) : Prop := ∀ u, r = .ok u → u.cfg = s.cfg

theorem keepsConfig_ok {s u : State} (h : u.cfg = s.cfg) : KeepsConfig s (.ok u) := by
  rintro _ ⟨⟩
  exact h

theorem keepsConfig_bind {α : Type} {s : State} {x : Except Fault α} {f : α → Except Fault State}
    (hf : ∀ v, x = .ok v → KeepsConfig s (f v)) : KeepsConfig s (x >>= f) := by
  cases x with
  | ok v => exact hf v rfl
  | error e => rintro _ ⟨⟩

theorem memWrite_keepsConfig (s : State) (b : Byte) (v : Nibble) : KeepsConfig s (s.memWrite b v) := by
  rcases Nat.lt_or_ge b.toNat ramCells with hb | hb
  · rw [memWrite_ok v hb]
    exact keepsConfig_ok rfl
  · rw [memWrite_error v hb]
    rintro _ ⟨⟩

theorem exchange_keepsConfig (s : State) : KeepsConfig s s.exchange :=
  keepsConfig_bind fun _ _ => keepsConfig_bind fun u hu => keepsConfig_ok (memWrite_keepsConfig s _ _ u hu)

theorem push_keepsConfig (s : State) (v : PC) : KeepsConfig s (s.push v) := by
  by_cases hfull : s.stack.length = stackDepth
  · rw [push_error v hfull]
    rintro _ ⟨⟩
  · rw [push_ok v hfull]
    exact keepsConfig_ok rfl

theorem pop_cfg {s u : State} {v : PC} (h : s.pop = .ok (v, u)) : u.cfg = s.cfg := by
  cases hstack : s.stack with
  | nil => rw [pop_nil hstack] at h; cases h
  | cons w rest => rw [pop_cons hstack] at h; cases h; rfl

/-! ### Instructions, steps, runs -/

theorem cfg_of_next {s t u : State} (h : Host.Outcome.next u = (.next t : Result)) (hu : u.cfg = s.cfg) :
    t.cfg = s.cfg := by
  cases h
  exact hu

theorem cfg_of_finish {s t : State} {r : Except Fault State} (h : s.finish r = .next t) (hr : KeepsConfig s r) :
    t.cfg = s.cfg := by
  rcases finish_cases h with hok | ⟨f, -, rfl⟩
  · exact hr t hok
  · exact State.raise_cfg s f

/-- No instruction writes the configuration (spec R15). -/
theorem exec_cfg {i : Instr} {s t : State} (h : exec i s = .next t) : t.cfg = s.cfg := by
  cases i with
  | tl | lda | add | adc | tm => exact cfg_of_finish h (keepsConfig_bind fun _ _ => keepsConfig_ok rfl)
  | exc | exci | excd =>
    exact cfg_of_finish h (keepsConfig_bind fun u hu => keepsConfig_ok (exchange_keepsConfig s u hu))
  | rm => exact cfg_of_finish h (keepsConfig_bind fun _ _ => memWrite_keepsConfig s _ _)
  | trs => exact cfg_of_finish h (keepsConfig_bind fun u hu => keepsConfig_ok (push_keepsConfig s _ u hu))
  | call =>
    exact cfg_of_finish h (keepsConfig_bind fun u hu => keepsConfig_bind fun _ _ =>
      keepsConfig_ok (push_keepsConfig s _ u hu))
  | rtn =>
    exact cfg_of_finish h (keepsConfig_bind fun ⟨_, u⟩ hpop =>
      keepsConfig_ok (show u.cfg = s.cfg from pop_cfg hpop))
  | tpb p =>
    simp only [exec, execTpb] at h
    split at h
    · exact cfg_of_next h rfl
    split at h
    · exact cfg_of_next h rfl
    split at h <;> exact cfg_of_next h rfl
  | out =>
    simp only [exec, execOut] at h
    split at h
    · exact cfg_of_next h rfl
    split at h <;> exact cfg_of_next h rfl
  | dta x =>
    simp only [exec, execDta] at h
    split at h <;> exact cfg_of_next h rfl
  | tr | lax | lbmx | lblx | exax | atx | exbm | exbl | ex | adx | coma | incb | decb | tc | tabl | sc | rc | outl | pat
  | nop => exact cfg_of_next h rfl

/-- No host action writes the configuration (spec R15, R206). -/
theorem atObservation_cfg (s : State) (i : Instr) : (atObservation s i).cfg = s.cfg := by
  obtain ⟨_, _, _, _, _, _, _, h⟩ := observe_frame { s with fpc := s.pc, pc := advanceBy s.pc (bytesOf i) }
  rw [atObservation, h]

/-- No step writes the configuration, with any host (spec R15, R67). -/
theorem step_cfg {s t : State} (h : step s = .next t) : t.cfg = s.cfg := by
  obtain ⟨-, -, ⟨-, rfl⟩ | ⟨i, -, ⟨-, rfl⟩ | ⟨-, -, rfl⟩ | ⟨-, -, hexec⟩⟩⟩ := step_cases h
  · rfl
  · exact atObservation_cfg s i
  · exact atObservation_cfg s i
  · exact (exec_cfg hexec).trans (atObservation_cfg s i)

/-- What every step keeps holds at the end of a run that starts with it. -/
theorem run_keeps {P : State → Prop} (hstep : ∀ s t, step s = .next t → P s → P t) {k : Nat} {s t : State}
    (h : run k s = .next t) (hs : P s) : P t := by
  induction k generalizing s with
  | zero => cases h; exact hs
  | succ k ih =>
    obtain ⟨u, hu, hrun⟩ := run_cases h
    exact ih hrun (hstep s u hu hs)

theorem run_cfg {k : Nat} {s t : State} (h : run k s = .next t) : t.cfg = s.cfg :=
  run_keeps (P := fun u => u.cfg = s.cfg) (fun _ _ hu hs => (step_cfg hu).trans hs) h rfl

/-- Settles O21: ROM is part of the configuration, which no step of a run writes, and the fetch looks at the configuration
and `PC` alone. -/
theorem romIsTheSameAtEveryPointOfARun : Obligations.RomIsTheSameAtEveryPointOfARun := by
  unfold Obligations.RomIsTheSameAtEveryPointOfARun
  exact ⟨fun _ _ _ hrun => romRead_congr (run_cfg hrun), fun _ _ i => fetches_congr rfl rfl i⟩

end Sys2Proof.Machine
end

section
/-! A step is taken exactly where the machine is running: neither an instruction nor a fault it raises stops a step from
answering a next state (spec R10, R100). -/

namespace Sys2Proof.Machine

open Sys2Proof.Safety

/-- An instruction's end is a next state also where the instruction faulted (spec R10, R188). -/
theorem finish_exists_next (s : State) (r : Except Fault State) : ∃ t, s.finish r = .next t := by
  cases r with
  | ok t => exact ⟨t, finish_ok s t⟩
  | error f => exact ⟨s.raise f, finish_error s f⟩

/-- Every instruction answers a next state: none stops the machine or is refused (spec R100). -/
theorem exec_exists_next (i : Instr) (s : State) : ∃ t, exec i s = .next t := by
  cases i with
  | tl | trs | call | rtn | lda | exc | exci | excd | add | adc | tm | rm => exact finish_exists_next s _
  | tpb p =>
    simp only [exec, execTpb]
    split
    · exact ⟨_, rfl⟩
    split
    · exact ⟨_, rfl⟩
    split
    · exact ⟨_, rfl⟩
    · exact finish_exists_next s _
  | out =>
    simp only [exec, execOut]
    split
    · exact ⟨_, rfl⟩
    split <;> exact ⟨_, rfl⟩
  | dta x =>
    simp only [exec, execDta]
    split <;> exact ⟨_, rfl⟩
  | tr | lax | lbmx | lblx | exax | atx | exbm | exbl | ex | adx | coma | incb | decb | tc | tabl | sc | rc | outl | pat
  | nop => exact ⟨_, rfl⟩

/-- Once an instruction is fetched the step answers a next state: where the host ends the run, where `SKIP` suppresses
the instruction, and where it is executed (spec R105 to R108). -/
theorem runFetched_exists_next (s : State) (i : Instr) (nbytes : Nat) : ∃ t, s.runFetched i nbytes = .next t := by
  unfold State.runFetched
  split
  · exact ⟨_, rfl⟩
  split
  · exact ⟨_, rfl⟩
  · exact exec_exists_next i _

/-- A running machine has a step, whatever byte is at its `PC` (spec R100, R103). -/
theorem step_exists_next {s : State} (h : running s) : ∃ t, step s = .next t := by
  obtain ⟨hfault, hended⟩ := h
  simp only [step, hfault, hended, Bool.false_eq_true, if_false]
  rcases fetch_cases s.capture with ⟨-, hfetch⟩ | ⟨i, op, arg, -, hfetch⟩
  · rw [hfetch]
    exact ⟨_, rfl⟩
  · rw [hfetch]
    exact runFetched_exists_next _ i _

/-- A machine that took a step was running (spec R100). -/
theorem running_of_step {s t : State} (h : step s = .next t) : running s := by
  obtain ⟨hfault, hended, -⟩ := step_cases h
  exact ⟨hfault, hended⟩

/-- Settles O12: a step shows that the machine was running, and a running machine has one because every fetch, host move
and instruction ends in a next state. -/
theorem machineStepsExactlyWhenRunning : Obligations.MachineStepsExactlyWhenRunning := by
  unfold Obligations.MachineStepsExactlyWhenRunning
  exact fun s => ⟨fun ⟨_, h⟩ => running_of_step h, step_exists_next⟩

end Sys2Proof.Machine
end

section
/-! `TRS` and `RTN`: their one byte, what they push and pop, and the fault of a full and of an empty stack (spec R122,
R124). -/

namespace Sys2Proof.Machine

/-- The byte after a one-byte instruction is no part of it. -/
theorem decodeOp_ignores_arg {op : Byte} (h : opcodeLength op = some 1) (x y : Byte) :
    decodeOp op x = decodeOp op y := by
  obtain ⟨row, hrow, hlen⟩ := Option.map_eq_some_iff.mp h
  simp only [decodeOp, hrow, Option.map_some, row_ignores_arg (rowOf_mem hrow) (by omega) op x y]

theorem opcodeLength_trs (t : BitVec 5) : opcodeLength (0xC0#8 ||| t.setWidth 8) = some 1 := Laws.OpcodeLength.trs t

theorem decodeOp_trs (t : BitVec 5) (arg : Byte) : decodeOp (0xC0#8 ||| t.setWidth 8) arg = some (.trs t) := by
  rw [decodeOp_ignores_arg (opcodeLength_trs t) arg 0]
  revert t
  decide

theorem opcodeLength_rtn : opcodeLength 0x7D#8 = some 1 := Laws.OpcodeLength.rtn

theorem decodeOp_rtn (arg : Byte) : decodeOp 0x7D#8 arg = some .rtn := by
  rw [decodeOp_ignores_arg opcodeLength_rtn arg 0]
  decide

/-- The address `t << 1` loses no bit of `t`: five bits and the zero fit the six of an address (spec R122). -/
theorem trsTarget_eq (t : BitVec 5) : trsTarget t = ⟨1, BitVec.ofNat 6 (2 * t.toNat)⟩ := by
  have haddr : t.setWidth 6 <<< 1 = BitVec.ofNat 6 (2 * t.toNat) := by
    apply BitVec.eq_of_toNat_eq
    have := t.isLt
    simp only [BitVec.toNat_shiftLeft, BitVec.toNat_setWidth, BitVec.toNat_ofNat, Nat.shiftLeft_eq]
    omega
  rw [trsTarget, haddr]
  rfl

theorem exec_trs_pushes {s : State} (t : BitVec 5) (h : s.stack.length ≠ stackDepth) :
    exec (.trs t) s = .next { s with stack := s.pc :: s.stack, pc := trsTarget t } := by
  simp only [exec, execTrs, push_ok s.pc h]
  rfl

theorem exec_trs_full {s : State} (t : BitVec 5) (h : s.stack.length = stackDepth) :
    exec (.trs t) s = .next (s.raise (.stackOverflow s.fpc)) := by
  simp only [exec, execTrs, push_error s.pc h]
  rfl

theorem exec_rtn_pops {s : State} {v : PC} {rest : List PC} (h : s.stack = v :: rest) :
    exec .rtn s = .next { s with pc := v, stack := rest } := by
  simp only [exec, execRtn, pop_cons h]
  rfl

theorem exec_rtn_empty {s : State} (h : s.stack = []) :
    exec .rtn s = .next (s.raise (.stackUnderflow s.fpc)) := by
  simp only [exec, execRtn, pop_nil h]
  rfl

/-- Settles O33: the opcode byte alone decides `TRS`, and its push either finds room, with the target `2 * t` in page 1,
or raises and writes nothing else. -/
theorem shortCallPushesAndGoesToPageOne : Obligations.ShortCallPushesAndGoesToPageOne := by
  unfold Obligations.ShortCallPushesAndGoesToPageOne
  refine fun s t arg => ⟨decodeOp_trs t arg, opcodeLength_trs t, fun hroom => ?_, fun hfull => exec_trs_full t hfull⟩
  rw [exec_trs_pushes t hroom, trsTarget_eq]

/-- Settles O35: the byte 0x7D is `RTN` whatever follows it, and its pop either gives the new `PC` or raises and writes
nothing else. -/
theorem returnPopsThePc : Obligations.ReturnPopsThePc := by
  unfold Obligations.ReturnPopsThePc
  exact fun s v rest arg => ⟨decodeOp_rtn arg, opcodeLength_rtn, exec_rtn_pops, exec_rtn_empty⟩

end Sys2Proof.Machine
end

section
/-! `LAX`: its one byte, and the one register it writes (spec R130). -/

namespace Sys2Proof.Machine

theorem opcodeLength_lax (n : Nibble) : opcodeLength (0x10#8 ||| n.setWidth 8) = some 1 := Laws.OpcodeLength.lax n

theorem decodeOp_lax (n : Nibble) (arg : Byte) : decodeOp (0x10#8 ||| n.setWidth 8) arg = some (.lax n) := by
  rw [decodeOp_ignores_arg (opcodeLength_lax n) arg 0]
  revert n
  decide

@[simp] theorem exec_lax (n : Nibble) (s : State) : exec (.lax n) s = .next { s with a := n } := rfl

/-- Settles O37: the opcode byte alone decides `LAX`, and since it writes `A` and never `SKIP`, a second `LAX` overwrites the
`A` of the first. -/
theorem loadImmediateWritesA : Obligations.LoadImmediateWritesA := by
  unfold Obligations.LoadImmediateWritesA
  exact fun s n m arg => ⟨decodeOp_lax n arg, exec_lax n s, { s with a := n }, exec_lax n s, exec_lax m { s with a := n }⟩

end Sys2Proof.Machine
end

section
/-! What decides a one-byte instruction, and what `skipIf` writes (spec R28, R80). -/

namespace Sys2Proof.Machine

/-- A one-byte opcode that decodes with a zero after it decodes the same with any byte after it. -/
theorem decodeOp_oneByte {op : Byte} {i : Instr} (hlen : opcodeLength op = some 1) (h : decodeOp op 0 = some i)
    (arg : Byte) : decodeOp op arg = some i :=
  (decodeOp_ignores_arg hlen arg 0).trans h

/-- `SKIP` is only ever set: where the condition fails it keeps its value (spec R28). -/
theorem skipIf_eq (s : State) (cond : Bool) : s.skipIf cond = { s with skip := s.skip || cond } := by
  cases cond <;> simp [State.skipIf]

end Sys2Proof.Machine
end

section
/-! `ADX` and `COMA`: their one byte, the new `A`, and the skip on the overflow of `ADX` (spec R150, R153). -/

namespace Sys2Proof.Machine

/-- The low half of the byte is the addend, and 0x00 is `NOP` before it is an `ADX` (spec R83, R150). -/
theorem decodeOp_adx (n : Nibble) (arg : Byte) :
    decodeOp (0x00#8 ||| n.setWidth 8) arg = some (if n = 0 then .nop else .adx n) := by
  have hzero : decodeOp (0x00#8 ||| n.setWidth 8) 0 = some (if n = 0 then .nop else .adx n) := by
    revert n
    decide
  exact decodeOp_oneByte (Laws.OpcodeLength.adx n) hzero arg

theorem exec_adx (n : Nibble) (s : State) :
    exec (.adx n) s = .next { s with
      a := narrow (s.a.toNat + n.toNat), skip := s.skip || overflows (s.a.toNat + n.toNat) } := by
  simp only [exec, execAdx, skipIf_eq]

theorem decodeOp_coma (arg : Byte) : decodeOp 0x79#8 arg = some .coma :=
  decodeOp_oneByte Laws.OpcodeLength.coma (by decide) arg

@[simp] theorem exec_coma (s : State) : exec .coma s = .next { s with a := ~~~s.a } := rfl

/-- Settles O45: the opcode byte alone decides between `NOP` and `ADX`, and `ADX` writes the narrowed sum to `A` and its
overflow to `SKIP`. -/
theorem addImmediateSkipsOnOverflow : Obligations.AddImmediateSkipsOnOverflow := by
  unfold Obligations.AddImmediateSkipsOnOverflow
  exact fun s n arg => ⟨decodeOp_adx n arg, exec_adx n s⟩

/-- Settles O48: the byte 0x79 is `COMA` whatever follows it, and the complement of four bits is the distance from 15. -/
theorem complementIsFifteenMinus : Obligations.ComplementIsFifteenMinus := by
  unfold Obligations.ComplementIsFifteenMinus
  exact fun s arg => ⟨decodeOp_coma arg, _, exec_coma s, BitVec.toNat_not, rfl⟩

end Sys2Proof.Machine
end

section
/-! `TC` and `TABL`, which test and write `SKIP` alone, `SC` and `RC`, which write `C` alone (spec R156, R158, R160,
R161). -/

namespace Sys2Proof.Machine

theorem decodeOp_tc (arg : Byte) : decodeOp 0x6E#8 arg = some .tc :=
  decodeOp_oneByte Laws.OpcodeLength.tc (by decide) arg

theorem exec_tc (s : State) : exec .tc s = .next { s with skip := s.skip || s.c } := by
  simp only [exec, execTc, skipIf_eq]

theorem decodeOp_tabl (arg : Byte) : decodeOp 0x6B#8 arg = some .tabl :=
  decodeOp_oneByte Laws.OpcodeLength.tabl (by decide) arg

theorem exec_tabl (s : State) :
    exec .tabl s = .next { s with skip := s.skip || decide (s.a.toNat = s.bl.toNat) } := by
  simp only [exec, execTabl, skipIf_eq, BitVec.toNat_inj]
  rfl

theorem decodeOp_sc (arg : Byte) : decodeOp 0x61#8 arg = some .sc :=
  decodeOp_oneByte Laws.OpcodeLength.sc (by decide) arg

@[simp] theorem exec_sc (s : State) : exec .sc s = .next { s with c := true } := rfl

theorem decodeOp_rc (arg : Byte) : decodeOp 0x60#8 arg = some .rc :=
  decodeOp_oneByte Laws.OpcodeLength.rc (by decide) arg

@[simp] theorem exec_rc (s : State) : exec .rc s = .next { s with c := false } := rfl

/-- Settles O50: each of the two bytes decides its test, and each test hands its condition to `skipIf`. -/
theorem carryAndEqualityTestsSetOnlySkip : Obligations.CarryAndEqualityTestsSetOnlySkip := by
  unfold Obligations.CarryAndEqualityTestsSetOnlySkip
  exact fun s arg => ⟨decodeOp_tc arg, decodeOp_tabl arg, exec_tc s, exec_tabl s⟩

/-- Settles O53: each of the two bytes decides its instruction, whose one write is to `C`. -/
theorem carryIsSetAndReset : Obligations.CarryIsSetAndReset := by
  unfold Obligations.CarryIsSetAndReset
  exact fun s arg => ⟨decodeOp_sc arg, decodeOp_rc arg, exec_sc s, exec_rc s⟩

end Sys2Proof.Machine
end

section
/-! What an operation that may fault answers where it does not, what no instruction writes (spec R44), and the cycle count
of a whole step (spec R106, R240). -/

namespace Sys2Proof.Machine

open Sys2Proof.Safety

/-! ### Operations that did not fault -/

theorem bind_ok_cases {α β : Type} {x : Except Fault α} {f : α → Except Fault β} {b : β} (h : x >>= f = .ok b) :
    ∃ v, x = .ok v ∧ f v = .ok b := by
  cases x with
  | ok v => exact ⟨v, rfl, h⟩
  | error e => cases h

theorem eq_of_memWrite {s u : State} {b : Byte} {v : Nibble} (h : s.memWrite b v = .ok u) :
    u = { s with ram := Mem.write s.ram b.toNat v } := by
  rcases Nat.lt_or_ge b.toNat ramCells with hb | hb
  · rw [memWrite_ok v hb] at h
    exact (Except.ok.inj h).symm
  · rw [memWrite_error v hb] at h
    cases h

theorem eq_of_exchange {s u : State} (h : s.exchange = .ok u) :
    u = { s with a := Mem.read s.ram s.b.toNat, ram := Mem.write s.ram s.b.toNat s.a } := by
  rcases Nat.lt_or_ge s.bm.toNat 4 with hbm | hbm
  · rw [exchange_ok hbm] at h
    exact (Except.ok.inj h).symm
  · rw [exchange_error hbm] at h
    cases h

theorem eq_of_push {s u : State} {v : PC} (h : s.push v = .ok u) : u = { s with stack := v :: s.stack } := by
  by_cases hfull : s.stack.length = stackDepth
  · rw [push_error v hfull] at h
    cases h
  · rw [push_ok v hfull] at h
    exact (Except.ok.inj h).symm

theorem eq_of_pop {s u : State} {v : PC} (h : s.pop = .ok (v, u)) : u = { s with stack := s.stack.tail } := by
  cases hstack : s.stack with
  | nil => rw [pop_nil hstack] at h; cases h
  | cons w rest => rw [pop_cons hstack] at h; cases h; rfl

/-! ### What no instruction writes -/

/-- The state that belongs to the step, the host or the launch alone, so that no instruction writes it (spec R44). -/
def State.unwritten (s : State) : Nat × PC × Nibble × Config × List (List HostAction) × Bool :=
  (s.cyc, s.fpc, s.port0, s.cfg, s.host, s.ended)

theorem unwritten_of_next {s t u : State} (h : Host.Outcome.next u = (.next t : Result))
    (hu : u.unwritten = s.unwritten) : t.unwritten = s.unwritten := by
  cases h
  exact hu

/-- An instruction that ends in a fault leaves everything but `FAULT`, so only its own result is left to look at. -/
theorem unwritten_of_finish {s t : State} {r : Except Fault State} (h : s.finish r = .next t)
    (hr : r = .ok t → t.unwritten = s.unwritten) : t.unwritten = s.unwritten := by
  rcases finish_cases h with hok | ⟨f, -, rfl⟩
  · exact hr hok
  · rfl

/-- An instruction counts no cycles, captures no frame, writes neither port 0 nor the configuration, and does not touch
the host (spec R44, R108). -/
theorem exec_unwritten {i : Instr} {s t : State} (h : exec i s = .next t) : t.unwritten = s.unwritten := by
  cases i with
  | tl | lda | add | adc | tm =>
    refine unwritten_of_finish h fun hok => ?_
    obtain ⟨v, -, hret⟩ := bind_ok_cases hok
    cases hret
    rfl
  | exc | exci | excd =>
    refine unwritten_of_finish h fun hok => ?_
    obtain ⟨u, hu, hret⟩ := bind_ok_cases hok
    cases hret
    cases eq_of_exchange hu
    rfl
  | rm k =>
    refine unwritten_of_finish h fun hok => ?_
    obtain ⟨v, -, hwrite⟩ := bind_ok_cases hok
    cases eq_of_memWrite hwrite
    rfl
  | trs e =>
    refine unwritten_of_finish h fun hok => ?_
    obtain ⟨u, hu, hret⟩ := bind_ok_cases hok
    cases hret
    cases eq_of_push hu
    rfl
  | call p a =>
    refine unwritten_of_finish h fun hok => ?_
    obtain ⟨u, hu, hjump⟩ := bind_ok_cases hok
    obtain ⟨target, -, hret⟩ := bind_ok_cases hjump
    cases hret
    cases eq_of_push hu
    rfl
  | rtn =>
    refine unwritten_of_finish h fun hok => ?_
    obtain ⟨⟨v, u⟩, hu, hret⟩ := bind_ok_cases hok
    cases hret
    cases eq_of_pop hu
    rfl
  | tpb p =>
    simp only [exec, execTpb] at h
    split at h
    · exact unwritten_of_next h rfl
    split at h
    · exact unwritten_of_next h rfl
    split at h <;> exact unwritten_of_next h rfl
  | out =>
    simp only [exec, execOut] at h
    split at h
    · exact unwritten_of_next h rfl
    split at h <;> exact unwritten_of_next h rfl
  | dta x =>
    simp only [exec, execDta] at h
    split at h <;> exact unwritten_of_next h rfl
  | tr | lax | lbmx | lblx | exax | atx | exbm | exbl | ex | adx | coma | incb | decb | tc | tabl | sc | rc | outl | pat
  | nop => exact unwritten_of_next h rfl

theorem exec_cyc {i : Instr} {s t : State} (h : exec i s = .next t) : t.cyc = s.cyc :=
  congrArg Prod.fst (exec_unwritten h)

/-! ### The cycle count of a step -/

/-- Neither the fetch nor the host counts: at the observation point `CYC` is still the old one (spec R105, R106). -/
theorem atObservation_cyc (s : State) (i : Instr) : (atObservation s i).cyc = s.cyc := by
  obtain ⟨_, _, _, _, _, _, _, h⟩ := observe_frame { s with fpc := s.pc, pc := advanceBy s.pc (bytesOf i) }
  rw [atObservation, h]

/-- The two bytes at `PC` are of one instruction only. -/
theorem fetches_unique {s : State} {i j : Instr} (hi : fetches s i) (hj : fetches s j) : i = j :=
  Option.some.inj (hi.symm.trans hj)

/-- What is fetched is not an undefined byte. -/
theorem rowOf_ne_none_of_fetches {s : State} {i : Instr} (h : fetches s i) : rowOf (s.romRead s.pc) ≠ none := by
  intro hnone
  simp [fetches, decodeOp, hnone] at h

/-- A step in which the host did not end the run counts the bytes of its instruction, suppressed or executed (spec R106). -/
theorem step_cyc {s t : State} {i : Instr} (hi : fetches s i) (h : step s = .next t) (hended : t.ended = false) :
    t.cyc = s.cyc + bytesOf i := by
  obtain ⟨-, -, ⟨hnone, -⟩ | ⟨j, hj, hcase⟩⟩ := step_cases h
  · exact absurd hnone (rowOf_ne_none_of_fetches hi)
  obtain rfl := fetches_unique hi hj
  rw [← atObservation_cyc s i]
  obtain ⟨hquit, rfl⟩ | ⟨-, -, rfl⟩ | ⟨-, -, hexec⟩ := hcase
  · rw [hquit] at hended
    cases hended
  · rfl
  · exact exec_cyc hexec

/-- Settles O14: a step that reaches its cycle count adds `bytesOf` its instruction, whether it suppresses or executes it,
since neither the host nor the instruction writes `CYC`. -/
theorem cycleCounterAddsBytesFetched : Obligations.CycleCounterAddsBytesFetched := by
  unfold Obligations.CycleCounterAddsBytesFetched
  intro s t i hi h hended
  rw [step_cyc hi h hended]
  cases i <;> rfl

end Sys2Proof.Machine
end

section
/-! What an instruction does, said once: where the fault table names a fault the instruction records it and nothing else
(spec R180, R183), and everywhere else it leaves the state `effect` describes (spec R120 to R174). -/

namespace Sys2Proof.Machine

open Sys2Proof.Safety

/-! ### Shared operations -/

theorem incBl_eq (s : State) : s.incBl =
    { s with bl := narrow (s.bl.toNat + 1), skip := s.skip || (narrow (s.bl.toNat + 1) == 0#4) } := skipIf_eq _ _

theorem decBl_eq (s : State) : s.decBl =
    { s with bl := narrow (s.bl.toNat + 15), skip := s.skip || (narrow (s.bl.toNat + 15) == 15#4) } := skipIf_eq _ _

/-- The RAM cell `B` addresses. -/
def State.cell (s : State) : Nibble := Mem.read s.ram s.b.toNat

/-- The value `TPB p` tests for an index that is no fault (spec R170). -/
def State.testedLevel (s : State) (p : BitVec 2) : Nibble :=
  if p = 0#2 then s.port0 else if p = 1#2 then s.port1Level else s.port2

/-- What `OUT` puts out (spec R172). -/
def State.outEvent (s : State) : Event :=
  if s.bl = 15#4 then .outHiz (s.a == 0#4) else if s.bl = 2#4 then .outPort s.a else .outOther s.bl s.a

/-! ### The state an instruction leaves where it does not fault -/

/-- The state an instruction without a fault leaves, as one update of the fields it writes. -/
def effect (s : State) : Instr → State
  | .tr a => { s with pc := ⟨s.pc.page, a⟩ }
  | .tl p a => { s with pc := ⟨p.setWidth 4, a⟩ }
  | .trs t => { s with pc := trsTarget t, stack := s.pc :: s.stack }
  | .call p a => { s with pc := ⟨p.setWidth 4, a⟩, stack := s.pc :: s.stack }
  | .rtn => { s with pc := s.stack.headD ⟨0, 0⟩, stack := s.stack.tail }
  | .lax n => { s with a := n }
  | .lbmx n => { s with bm := n }
  | .lblx n => { s with bl := n }
  | .lda m => { s with a := s.cell, bm := s.bm ^^^ m.setWidth 4 }
  | .exc m => { s with a := s.cell, ram := Mem.write s.ram s.b.toNat s.a, bm := s.bm ^^^ m.setWidth 4 }
  | .exci m => { s with
      a := s.cell, ram := Mem.write s.ram s.b.toNat s.a, bm := s.bm ^^^ m.setWidth 4
      bl := narrow (s.bl.toNat + 1), skip := s.skip || (narrow (s.bl.toNat + 1) == 0#4) }
  | .excd m => { s with
      a := s.cell, ram := Mem.write s.ram s.b.toNat s.a, bm := s.bm ^^^ m.setWidth 4
      bl := narrow (s.bl.toNat + 15), skip := s.skip || (narrow (s.bl.toNat + 15) == 15#4) }
  | .exax => { s with a := s.x, x := s.a }
  | .atx => { s with x := s.a }
  | .exbm => { s with a := s.bm, bm := s.a }
  | .exbl => { s with a := s.bl, bl := s.a }
  | .ex => { s with bm := highNibble s.sb, bl := lowNibble s.sb, sb := s.b }
  | .adx n => { s with a := narrow (s.a.toNat + n.toNat), skip := s.skip || overflows (s.a.toNat + n.toNat) }
  | .add => { s with a := narrow (s.a.toNat + s.cell.toNat) }
  | .adc => { s with
      a := narrow (adcSum s.a s.cell s.c), c := overflows (adcSum s.a s.cell s.c)
      skip := s.skip || overflows (adcSum s.a s.cell s.c) }
  | .coma => { s with a := ~~~s.a }
  | .incb => { s with bl := narrow (s.bl.toNat + 1), skip := s.skip || (narrow (s.bl.toNat + 1) == 0#4) }
  | .decb => { s with bl := narrow (s.bl.toNat + 15), skip := s.skip || (narrow (s.bl.toNat + 15) == 15#4) }
  | .tc => { s with skip := s.skip || s.c }
  | .tm k => { s with skip := s.skip || testBit s.cell k }
  | .tabl => { s with skip := s.skip || (s.a == s.bl) }
  | .tpb p => { s with
      port1 := if p = 1#2 then s.port1Level else s.port1
      skip := s.skip || (p == 0#2 || s.testedLevel p != 0#4)
      events := s.events ++ [.portTest p (s.testedLevel p)] }
  | .rm k => { s with ram := Mem.write s.ram s.b.toNat (clearBit s.cell k) }
  | .sc => { s with c := true }
  | .rc => { s with c := false }
  | .outl => { s with events := s.events ++ [.outL s.a] }
  | .out => { s with
      hiz := if s.bl = 15#4 then s.a == 0#4 else s.hiz
      port2 := if s.bl = 2#4 then s.a else s.port2
      events := s.events ++ [s.outEvent] }
  | .pat _ => { s with
      x := highNibble (s.romRead (patLocation s.x s.a)), a := lowNibble (s.romRead (patLocation s.x s.a)) }
  | .dta _ => { s with skip := if secretSelected s.bm then secretBit s.cfg s.bm s.bl else s.skip }
  | .nop => s

/-! ### RAM instructions -/

theorem ramFault_none {s : State} : ramFault s = none ↔ s.bm.toNat < 4 := by
  simp [ramFault]

theorem ramFault_some {s : State} {f : Fault} (h : ramFault s = some f) : 4 ≤ s.bm.toNat ∧ f = .ramRange s.b := by
  unfold ramFault at h
  split at h
  · exact ⟨‹_›, (Option.some.inj h).symm⟩
  · cases h

theorem memRead_b {s : State} (h : s.bm.toNat < 4) : s.memRead s.b = .ok s.cell := memRead_ok ((b_inRam s).mpr h)

theorem memRead_b_error {s : State} (h : 4 ≤ s.bm.toNat) : s.memRead s.b = .error (.ramRange s.b) :=
  memRead_error (by have := b_inRam s; omega)

/-- With `BM` 4 to 15 the read, or the exchange, comes first and raises (spec R52). -/
theorem exec_ramFault {i : Instr} {s : State} (hi : touchesRam i = true) (h : 4 ≤ s.bm.toNat) :
    exec i s = .next (s.raise (.ramRange s.b)) := by
  cases i with
  | lda m => simp only [exec, execLda, memRead_b_error h]; rfl
  | exc m => simp only [exec, execExc, exchange_error h]; rfl
  | exci m => simp only [exec, execExci, exchange_error h]; rfl
  | excd m => simp only [exec, execExcd, exchange_error h]; rfl
  | add => simp only [exec, execAdd, memRead_b_error h]; rfl
  | adc => simp only [exec, execAdc, memRead_b_error h]; rfl
  | tm k => simp only [exec, execTm, memRead_b_error h]; rfl
  | rm k => simp only [exec, execRm, memRead_b_error h]; rfl
  | tr | tl | trs | call | rtn | lax | lbmx | lblx | exax | atx | exbm | exbl | ex | adx | coma | incb | decb | tc | tabl
  | tpb | sc | rc | outl | out | pat | dta | nop => cases hi

/-- With `BM` 0 to 3 the cell at `B` is read, and written where the instruction writes it (spec R53, R54). -/
theorem exec_ram {i : Instr} {s : State} (hi : touchesRam i = true) (h : s.bm.toNat < 4) :
    exec i s = .next (effect s i) := by
  cases i with
  | lda m => simp only [exec, execLda, memRead_b h]; rfl
  | exc m => simp only [exec, execExc, exchange_ok h]; rfl
  | exci m => simp only [exec, execExci, exchange_ok h, bind, Except.bind, incBl_eq]; rfl
  | excd m => simp only [exec, execExcd, exchange_ok h, bind, Except.bind, decBl_eq]; rfl
  | add => simp only [exec, execAdd, memRead_b h]; rfl
  | adc => simp only [exec, execAdc, memRead_b h, bind, Except.bind, skipIf_eq]; rfl
  | tm k => simp only [exec, execTm, memRead_b h, bind, Except.bind, skipIf_eq]; rfl
  | rm k => simp only [exec, execRm, memRead_b h, bind, Except.bind, memWrite_ok _ ((b_inRam s).mpr h)]; rfl
  | tr | tl | trs | call | rtn | lax | lbmx | lblx | exax | atx | exbm | exbl | ex | adx | coma | incb | decb | tc | tabl
  | tpb | sc | rc | outl | out | pat | dta | nop => cases hi

/-! ### Control transfer -/

theorem pageFault_none {p : SixBits} (a : SixBits) : pageFault p a = none ↔ p.toNat < 16 := by
  simp [pageFault]

theorem pageFault_some {p a : SixBits} {f : Fault} (h : pageFault p a = some f) : 16 ≤ p.toNat ∧ f = .romPage p a := by
  unfold pageFault at h
  split at h
  · exact ⟨‹_›, (Option.some.inj h).symm⟩
  · cases h

theorem pushFault_none {s : State} : pushFault s = none ↔ s.stack.length ≠ stackDepth := by
  simp [pushFault, stackDepth]

theorem pushFault_some {s : State} {f : Fault} (h : pushFault s = some f) :
    s.stack.length = stackDepth ∧ f = .stackOverflow s.fpc := by
  unfold pushFault at h
  split at h
  · exact ⟨‹_›, (Option.some.inj h).symm⟩
  · cases h

theorem exec_tl {p : SixBits} (a : SixBits) (s : State) (h : p.toNat < 16) :
    exec (.tl p a) s = .next { s with pc := ⟨p.setWidth 4, a⟩ } := by
  simp only [exec, execTl, longTarget_ok a h]; rfl

theorem exec_tl_romPage {p : SixBits} (a : SixBits) (s : State) (h : 16 ≤ p.toNat) :
    exec (.tl p a) s = .next (s.raise (.romPage p a)) := by
  simp only [exec, execTl, longTarget_error a h]; rfl

theorem exec_call {s : State} {p : SixBits} (a : SixBits) (hroom : s.stack.length ≠ stackDepth) (h : p.toNat < 16) :
    exec (.call p a) s = .next { s with stack := s.pc :: s.stack, pc := ⟨p.setWidth 4, a⟩ } := by
  simp only [exec, execCall, push_ok s.pc hroom, longTarget_ok a h]; rfl

theorem exec_call_full {s : State} (p a : SixBits) (hfull : s.stack.length = stackDepth) :
    exec (.call p a) s = .next (s.raise (.stackOverflow s.fpc)) := by
  simp only [exec, execCall, push_error s.pc hfull]; rfl

theorem exec_call_romPage {s : State} {p : SixBits} (a : SixBits) (hroom : s.stack.length ≠ stackDepth)
    (h : 16 ≤ p.toNat) : exec (.call p a) s = .next (s.raise (.romPage p a)) := by
  simp only [exec, execCall, push_ok s.pc hroom, longTarget_error a h]; rfl

/-! ### Ports and tables -/

theorem exec_tpb {p : BitVec 2} (s : State) (h : p ≠ 3#2) : exec (.tpb p) s = .next (effect s (.tpb p)) := by
  have hcases : ∀ q : BitVec 2, q ≠ 3#2 → q = 0#2 ∨ q = 1#2 ∨ q = 2#2 := by decide
  rcases hcases p h with rfl | rfl | rfl <;> simp only [exec, execTpb, skipIf_eq] <;> rfl

theorem exec_out (s : State) : exec .out s = .next (effect s .out) := by
  simp only [exec, execOut, effect, State.outEvent]
  split
  · rename_i h
    simp only [h]
    rfl
  split <;> rfl

theorem exec_dta (x : Byte) (s : State) : exec (.dta x) s = .next (effect s (.dta x)) := by
  simp only [exec, execDta, effect]
  split <;> rfl

/-! ### Every instruction -/

/-- Where the fault table names a fault, the instruction records it and changes nothing else (spec R180, R188). -/
theorem exec_of_fault {i : Instr} {s : State} {f : Fault} (h : faultOf s i = some f) : exec i s = .next (s.raise f) := by
  cases i with
  | tl p a =>
    obtain ⟨hp, rfl⟩ := pageFault_some h
    exact exec_tl_romPage a s hp
  | trs t =>
    obtain ⟨hfull, rfl⟩ := pushFault_some h
    exact exec_trs_full t hfull
  | call p a =>
    simp only [faultOf] at h
    split at h
    · rename_i hpush
      obtain ⟨hfull, rfl⟩ := pushFault_some hpush
      cases h
      exact exec_call_full p a hfull
    · rename_i hpush
      obtain ⟨hp, rfl⟩ := pageFault_some h
      exact exec_call_romPage a (pushFault_none.mp hpush) hp
  | rtn =>
    simp only [faultOf] at h
    split at h
    · cases h
      exact exec_rtn_empty ‹_›
    · cases h
  | lda | exc | exci | excd | add | adc | tm | rm =>
    obtain ⟨hbm, rfl⟩ := ramFault_some h
    exact exec_ramFault rfl hbm
  | tpb p =>
    simp only [faultOf] at h
    split at h
    · cases h
      subst_vars
      rfl
    · cases h
  | tr | lax | lbmx | lblx | exax | atx | exbm | exbl | ex | adx | coma | incb | decb | tc | tabl | sc | rc | outl | out
  | pat | dta | nop => cases h

/-- Where the fault table names no fault, the instruction completes with its effect (spec R120 to R174). -/
theorem exec_of_noFault {i : Instr} {s : State} (h : faultOf s i = none) : exec i s = .next (effect s i) := by
  cases i with
  | tl p a => exact exec_tl a s ((pageFault_none a).mp h)
  | trs t => exact exec_trs_pushes t (pushFault_none.mp h)
  | call p a =>
    simp only [faultOf] at h
    split at h
    · cases h
    · exact exec_call a (pushFault_none.mp ‹_›) ((pageFault_none a).mp h)
  | rtn =>
    obtain ⟨v, rest, hstack⟩ : ∃ v rest, s.stack = v :: rest := List.exists_cons_of_ne_nil (by simpa [faultOf] using h)
    rw [exec_rtn_pops hstack, effect, hstack]
    rfl
  | lda | exc | exci | excd | add | adc | tm | rm => exact exec_ram rfl (ramFault_none.mp h)
  | tpb p => exact exec_tpb s (by simpa [faultOf] using h)
  | adx n => exact exec_adx n s
  | incb => exact congrArg _ (incBl_eq s)
  | decb => exact congrArg _ (decBl_eq s)
  | tc => exact exec_tc s
  | tabl => exact congrArg _ (skipIf_eq s _)
  | out => exact exec_out s
  | dta x => exact exec_dta x s
  | tr | lax | lbmx | lblx | exax | atx | exbm | exbl | ex | coma | sc | rc | outl | pat | nop => rfl

/-- The two ways an instruction ends. -/
theorem exec_cases {i : Instr} {s t : State} (h : exec i s = .next t) :
    (faultOf s i = none ∧ t = effect s i) ∨ ∃ f, faultOf s i = some f ∧ t = s.raise f := by
  cases hf : faultOf s i with
  | none => exact .inl ⟨rfl, Host.Outcome.next.inj (h.symm.trans (exec_of_noFault hf))⟩
  | some f => exact .inr ⟨f, rfl, Host.Outcome.next.inj (h.symm.trans (exec_of_fault hf))⟩

/-- No effect writes `FAULT`: only a fault does (spec R39, R188). -/
theorem effect_fault (s : State) (i : Instr) : (effect s i).fault = s.fault := by
  cases i <;> rfl

/-! ### The statements it settles -/

/-- Settles O27: a fault of the table is recorded in the starting state, and no effect writes `FAULT`. -/
theorem executionFaultsExactlyByTheTable : Obligations.ExecutionFaultsExactlyByTheTable := by
  unfold Obligations.ExecutionFaultsExactlyByTheTable
  exact fun i s => ⟨fun f hf => exec_of_fault hf, fun hf => ⟨effect s i, exec_of_noFault hf, effect_fault s i⟩⟩

/-- Settles O44: each of the eight starts with the access to the cell at `B`, which raises before anything is written. -/
theorem ramInstructionsFaultOutsideRam : Obligations.RamInstructionsFaultOutsideRam := by
  unfold Obligations.RamInstructionsFaultOutsideRam
  exact fun i s hi hbm => exec_ramFault hi hbm

end Sys2Proof.Machine
end

section
/-! The decoder and the encoder are inverse to each other, and which opcode bytes decode at all (spec R83 to R92). -/

namespace Sys2Proof.Machine

open Sys2Proof.Safety

/-! ### The row of an opcode byte -/

/-- But for the byte 0x00, a row that covers an opcode byte is the one the search finds, since no other does. -/
theorem rowOf_of_covers {op : Byte} {row : OpcodeRow} (hop : op ≠ 0) (hmem : row ∈ opcodeTable)
    (hcov : row.covers op = true) : rowOf op = some row := by
  have hone := opcodeTable_rows_disjoint op hop
  have hrow : row ∈ opcodeTable.filter (·.covers op) := List.mem_filter.mpr ⟨hmem, hcov⟩
  rw [rowOf, ← List.head?_filter]
  revert hone hrow
  cases opcodeTable.filter (·.covers op) with
  | nil => intro _ hrow; cases hrow
  | cons found others =>
    intro hone hrow
    obtain rfl : others = [] := List.length_eq_zero_iff.mp (by simpa using hone)
    rw [List.mem_singleton.mp hrow]
    rfl

theorem decodeOp_of_rowOf {op : Byte} {row : OpcodeRow} (h : rowOf op = some row) (arg : Byte) :
    decodeOp op arg = some (row.build op arg) := by
  simp [decodeOp, h]

theorem decodeOp_tl {op : Byte} (arg : Byte) (h : op &&& 0xF0#8 = 0xE0#8) :
    decodeOp op arg = some (.tl (longPage op arg) (longAddr arg)) := by
  refine decodeOp_of_rowOf (rowOf_of_covers ?_ (List.mem_of_getElem? (i := 2) rfl) (beq_iff_eq.mpr h)) arg
  rintro rfl
  exact absurd h (by decide)

theorem decodeOp_call {op : Byte} (arg : Byte) (h : op &&& 0xF0#8 = 0xF0#8) :
    decodeOp op arg = some (.call (longPage op arg) (longAddr arg)) := by
  refine decodeOp_of_rowOf (rowOf_of_covers ?_ (List.mem_of_getElem? (i := 4) rfl) (beq_iff_eq.mpr h)) arg
  rintro rfl
  exact absurd h (by decide)

theorem decodeOp_pat (arg : Byte) : decodeOp 0x6A#8 arg = some (.pat arg) := rfl

theorem decodeOp_dta (arg : Byte) : decodeOp 0x69#8 arg = some (.dta arg) := rfl

/-! ### Lists of bytes and the two bytes of a fetch -/

/-- Decoding a list takes as many bytes as the instruction has. -/
theorem decode_of_decodeOp {op arg : Byte} {i : Instr} (h : decodeOp op arg = some i) (rest : List Byte) :
    (bytesOf i = 1 → decode (op :: rest) = .ok (i, rest)) ∧
    (bytesOf i = 2 → decode (op :: arg :: rest) = .ok (i, rest)) := by
  obtain ⟨row, hrow, rfl⟩ := Option.map_eq_some_iff.mp h
  have hlen := row_length (rowOf_mem hrow) op arg
  constructor
  · intro hone
    rw [decode_oneByte rest hrow (by omega), row_ignores_arg (rowOf_mem hrow) (by omega) op 0 arg]
  · intro htwo
    exact decode_twoBytes arg rest hrow (by omega)

/-- What decodes from a list is what its first two bytes, a zero standing for a missing one, decode to. -/
theorem decodeOp_of_decode {bytes rest : List Byte} {i : Instr} (h : decode bytes = .ok (i, rest)) :
    ∃ op arg, decodeOp op arg = some i ∧
      ((bytesOf i = 1 ∧ arg = 0 ∧ bytes = op :: rest) ∨ (bytesOf i = 2 ∧ bytes = op :: arg :: rest)) := by
  obtain ⟨op, row, hrow, hcase⟩ := decode_cases h
  have hlen := row_length (rowOf_mem hrow) op
  rcases hcase with ⟨hone, rfl, rfl⟩ | ⟨htwo, arg, rfl, rfl⟩
  · have hbytes : bytesOf (row.build op 0) = 1 := by
      have hne : bytesOf (row.build op 0) ≠ 2 := fun h => hone ((hlen 0).trans h)
      revert hne
      cases row.build op 0 <;> simp [bytesOf]
    exact ⟨op, 0, decodeOp_of_rowOf hrow 0, .inl ⟨hbytes, rfl, rfl⟩⟩
  · exact ⟨op, arg, decodeOp_of_rowOf hrow arg, .inr ⟨((hlen arg).symm.trans htwo), rfl⟩⟩

/-! ### Long forms -/

theorem longOpcode_high (p : SixBits) :
    (0xE0#8 ||| (p >>> 2).setWidth 8) &&& 0xF0#8 = 0xE0#8 ∧ (0xF0#8 ||| (p >>> 2).setWidth 8) &&& 0xF0#8 = 0xF0#8 := by
  revert p
  decide

theorem longOpcode_toNat (p : SixBits) :
    (0xE0#8 ||| (p >>> 2).setWidth 8).toNat = 0xE0 + p.toNat / 4 ∧
    (0xF0#8 ||| (p >>> 2).setWidth 8).toNat = 0xF0 + p.toNat / 4 := by
  revert p
  decide

/-- The argument byte of a long form: the low two bits of the page above the address (spec R84, R92). -/
theorem longArg_toNat (p a : SixBits) :
    ((p.setWidth 8 <<< 6) ||| a.setWidth 8 : Byte).toNat = p.toNat % 4 * 64 + a.toNat := by
  have ha := a.isLt
  have hp := p.isLt
  have hhigh : p.toNat <<< 6 % 256 = (p.toNat % 4) <<< 6 := by simp only [Nat.shiftLeft_eq]; omega
  simp only [BitVec.toNat_or, BitVec.toNat_shiftLeft, BitVec.toNat_setWidth]
  rw [Nat.mod_eq_of_lt (show p.toNat < 2 ^ 8 by omega), Nat.mod_eq_of_lt (show a.toNat < 2 ^ 8 by omega), hhigh,
    ← Nat.shiftLeft_add_eq_or_of_lt ha, Nat.shiftLeft_eq]

/-- The page of a long form, in numbers (spec R84). -/
theorem longPage_toNat (op arg : Byte) : (longPage op arg).toNat = op.toNat % 16 * 4 + arg.toNat / 64 := by
  have harg := arg.isLt
  have hnibble : op.toNat &&& 15 = op.toNat % 16 := Nat.and_two_pow_sub_one_eq_mod op.toNat 4
  have hhigh : (op.toNat % 16) <<< 2 % 64 = (op.toNat % 16) <<< 2 := by simp only [Nat.shiftLeft_eq]; omega
  have hlow : arg.toNat / 2 ^ 6 < 2 ^ 2 := by omega
  simp only [longPage, BitVec.toNat_or, BitVec.toNat_shiftLeft, BitVec.toNat_setWidth, BitVec.toNat_and,
    BitVec.toNat_ushiftRight, BitVec.toNat_ofNat, Nat.shiftRight_eq_div_pow]
  rw [show 0x0F % 2 ^ 8 = 15 from rfl, hnibble, Nat.mod_eq_of_lt (show op.toNat % 16 < 2 ^ 6 by omega), hhigh,
    Nat.mod_eq_of_lt (show arg.toNat / 2 ^ 6 < 2 ^ 6 by omega), ← Nat.shiftLeft_add_eq_or_of_lt hlow, Nat.shiftLeft_eq]
  omega

theorem longAddr_toNat (arg : Byte) : (longAddr arg).toNat = arg.toNat % 64 := BitVec.toNat_setWidth ..

/-- The two bytes written for a page and an address are read as that page and that address (spec R84, R92). -/
theorem longTarget_of_longBytes {base op arg : Byte} {p a : SixBits} (hbase : base = 0xE0#8 ∨ base = 0xF0#8)
    (h : longBytes base p a = [op, arg]) : longPage op arg = p ∧ longAddr arg = a := by
  obtain ⟨he, hf⟩ := longOpcode_toNat p
  have ha := a.isLt
  simp only [longBytes, List.cons.injEq, and_true] at h
  obtain ⟨rfl, rfl⟩ := h
  constructor <;> apply BitVec.eq_of_toNat_eq
  · rw [longPage_toNat, longArg_toNat]
    rcases hbase with rfl | rfl <;> omega
  · rw [longAddr_toNat, longArg_toNat]
    omega

theorem toNat_of_highNibble {op base : Byte} (hbase : base = 0xE0#8 ∨ base = 0xF0#8) (hop : op &&& 0xF0#8 = base) :
    base.toNat + op.toNat % 16 = op.toNat := by
  subst hop
  revert op
  decide

/-- The bytes written for what two bytes of a long form are read as are those two bytes (spec R84, R92). -/
theorem longBytes_of_longTarget {base op : Byte} (arg : Byte) (hbase : base = 0xE0#8 ∨ base = 0xF0#8)
    (hop : op &&& 0xF0#8 = base) : longBytes base (longPage op arg) (longAddr arg) = [op, arg] := by
  obtain ⟨he, hf⟩ := longOpcode_toNat (longPage op arg)
  have hpage := longPage_toNat op arg
  have hnat := toNat_of_highNibble hbase hop
  have harg := arg.isLt
  simp only [longBytes, List.cons.injEq, and_true]
  constructor <;> apply BitVec.eq_of_toNat_eq
  · rcases hbase with rfl | rfl <;> simp only [BitVec.toNat_ofNat] at hnat <;> omega
  · rw [longArg_toNat, hpage, longAddr_toNat]
    omega

/-! ### Decoding what was encoded -/

theorem decode_encode_oneByte {op : Byte} {i : Instr} (hop : decodeOp op 0 = some i) (hlen : bytesOf i = 1)
    (rest : List Byte) (henc : encode i = [op]) : decode (encode i ++ rest) = .ok (i, rest) := by
  rw [henc]
  exact (decode_of_decodeOp hop rest).1 hlen

theorem decode_encode_twoBytes {op arg : Byte} {i : Instr} (hop : decodeOp op arg = some i) (hlen : bytesOf i = 2)
    (rest : List Byte) (henc : encode i = [op, arg]) : decode (encode i ++ rest) = .ok (i, rest) := by
  rw [henc]
  exact (decode_of_decodeOp hop rest).2 hlen

theorem decode_encode_tl (p a : SixBits) (rest : List Byte) :
    decode (encode (.tl p a) ++ rest) = .ok (.tl p a, rest) := by
  obtain ⟨hpage, haddr⟩ := longTarget_of_longBytes (base := 0xE0#8) (p := p) (a := a) (.inl rfl) rfl
  refine decode_encode_twoBytes ?_ rfl rest rfl
  rw [decodeOp_tl _ (longOpcode_high p).1, hpage, haddr]

theorem decode_encode_call (p a : SixBits) (rest : List Byte) :
    decode (encode (.call p a) ++ rest) = .ok (.call p a, rest) := by
  obtain ⟨hpage, haddr⟩ := longTarget_of_longBytes (base := 0xF0#8) (p := p) (a := a) (.inr rfl) rfl
  refine decode_encode_twoBytes ?_ rfl rest rfl
  rw [decodeOp_call _ (longOpcode_high p).2, hpage, haddr]

/-- Settles O1: the bytes written for an instruction lie in its row alone, and the row's fields read back every operand; of
`ADX` the well-formed operands are those whose byte is not `NOP`'s. -/
theorem decodeOfEncodeIsIdentity : Obligations.DecodeOfEncodeIsIdentity := by
  unfold Obligations.DecodeOfEncodeIsIdentity
  intro i rest hwf
  cases i with
  | tl p a => exact decode_encode_tl p a rest
  | call p a => exact decode_encode_call p a rest
  | pat x => exact decode_encode_twoBytes (decodeOp_pat x) rfl rest rfl
  | dta x => exact decode_encode_twoBytes (decodeOp_dta x) rfl rest rfl
  | tr a => exact decode_encode_oneByte (by revert a; decide) rfl rest rfl
  | trs t => exact decode_encode_oneByte (decodeOp_trs t 0) rfl rest rfl
  | lax n => exact decode_encode_oneByte (decodeOp_lax n 0) rfl rest rfl
  | lbmx n | lblx n => exact decode_encode_oneByte (by revert n; decide) rfl rest rfl
  | lda m | exc m | exci m | excd m | tm m | tpb m | rm m =>
    exact decode_encode_oneByte (by clear hwf; revert m; decide) rfl rest rfl
  | adx n =>
    have hn : n ≠ 0 := bne_iff_ne.mp hwf
    exact decode_encode_oneByte ((decodeOp_adx n 0).trans (by rw [if_neg hn])) rfl rest rfl
  | rtn | exax | atx | exbm | exbl | ex | add | adc | coma | incb | decb | tc | tabl | sc | rc | outl | out | nop =>
    exact decode_encode_oneByte rfl rfl rest rfl

/-! ### Encoding what was decoded -/

theorem opcodeLength_of_decodeOp {op arg : Byte} {i : Instr} (h : decodeOp op arg = some i) :
    opcodeLength op = some (bytesOf i) := by
  obtain ⟨row, hrow, rfl⟩ := Option.map_eq_some_iff.mp h
  rw [opcodeLength, hrow, ← row_length (rowOf_mem hrow)]
  rfl

/-- Every one-byte opcode is the byte written for its instruction (spec R85, R92). -/
theorem oneByte_wellFormed_encode {op : Byte} {i : Instr} (h : decodeOp op 0 = some i) (hlen : bytesOf i = 1) :
    i.wellFormed = true ∧ encode i = [op] := by
  have hall : ∀ op : Byte, (decodeOp op 0).all
      (fun i => bytesOf i != 1 || (i.wellFormed && encode i == [op])) = true := by decide
  have hop := hall op
  rw [h] at hop
  simpa [hlen] using hop

/-- The two-byte opcodes are the two ranges of the long forms, `PAT` and `DTA` (spec R80, R85). -/
theorem twoByte_opcode {op : Byte} (h : opcodeLength op = some 2) :
    op &&& 0xF0#8 = 0xE0#8 ∨ op &&& 0xF0#8 = 0xF0#8 ∨ op = 0x6A#8 ∨ op = 0x69#8 := by
  revert op
  decide

/-- The two bytes of a two-byte instruction are those written for it (spec R85, R92). -/
theorem twoByte_wellFormed_encode {op arg : Byte} {i : Instr} (h : decodeOp op arg = some i) (hlen : bytesOf i = 2) :
    i.wellFormed = true ∧ encode i = [op, arg] := by
  rcases twoByte_opcode ((opcodeLength_of_decodeOp h).trans (congrArg some hlen)) with htl | hcall | rfl | rfl
  · rw [decodeOp_tl arg htl] at h
    cases h
    exact ⟨rfl, longBytes_of_longTarget arg (.inl rfl) htl⟩
  · rw [decodeOp_call arg hcall] at h
    cases h
    exact ⟨rfl, longBytes_of_longTarget arg (.inr rfl) hcall⟩
  · rw [decodeOp_pat] at h
    cases h
    exact ⟨rfl, rfl⟩
  · rw [decodeOp_dta] at h
    cases h
    exact ⟨rfl, rfl⟩

/-- Settles O2: what decodes is one byte of a one-byte row or two of a two-byte row, and in both the encoder puts the bits
of the row and the operands back in their places. -/
theorem encodeOfDecodeIsIdentity : Obligations.EncodeOfDecodeIsIdentity := by
  unfold Obligations.EncodeOfDecodeIsIdentity
  intro bytes i rest h
  obtain ⟨op, arg, hop, ⟨hone, rfl, rfl⟩ | ⟨htwo, rfl⟩⟩ := decodeOp_of_decode h
  · obtain ⟨hwf, henc⟩ := oneByte_wellFormed_encode hop hone
    exact ⟨hwf, by rw [henc]; rfl⟩
  · obtain ⟨hwf, henc⟩ := twoByte_wellFormed_encode hop htwo
    exact ⟨hwf, by rw [henc]; rfl⟩

/-! ### Undefined bytes, long forms, vectors -/

/-- The bytes no row of the opcode table covers (spec R87). -/
def undefinedBytes : List Byte :=
  [0x44#8, 0x45#8, 0x46#8, 0x47#8, 0x62#8, 0x63#8, 0x6C#8, 0x6D#8, 0x6F#8, 0x70#8, 0x72#8, 0x73#8, 0x74#8, 0x76#8, 0x77#8,
    0x7E#8, 0x7F#8]

theorem opcodeLength_eq_none_iff (op : Byte) : opcodeLength op = none ↔ op ∈ undefinedBytes := by
  revert op
  decide

theorem rowOf_eq_none_iff (op : Byte) : rowOf op = none ↔ op ∈ undefinedBytes := by
  rw [← opcodeLength_eq_none_iff, opcodeLength, Option.map_eq_none_iff]

/-- An opcode byte is refused by name exactly where no row covers it: a byte with a row decodes or lacks its argument. -/
theorem decode_undefined_iff (op : Byte) (rest : List Byte) :
    decode (op :: rest) = .error (.undefinedOpcode op) ↔ rowOf op = none := by
  refine ⟨fun h => ?_, decode_undefined rest⟩
  cases hrow : rowOf op with
  | none => rfl
  | some row =>
    by_cases htwo : row.length = 2
    · cases rest with
      | nil => rw [decode_truncated hrow htwo] at h; cases h
      | cons arg more => rw [decode_twoBytes arg more hrow htwo] at h; cases h
    · rw [decode_oneByte rest hrow htwo] at h
      cases h

/-- Settles O3: a byte is refused by name exactly where no row covers it, and the 17 bytes are those no row covers. -/
theorem seventeenBytesAreUndefined : Obligations.SeventeenBytesAreUndefined := by
  unfold Obligations.SeventeenBytesAreUndefined
  exact fun op rest => (decode_undefined_iff op rest).trans (rowOf_eq_none_iff op)

/-- Bit 4 of an opcode byte from 0xE0 up chooses between the two long forms. -/
theorem longOpcode_cases {op : Byte} (h : 0xE0 ≤ op.toNat) :
    (op.toNat < 0xF0 ∧ op &&& 0xF0#8 = 0xE0#8) ∨ (¬ op.toNat < 0xF0 ∧ op &&& 0xF0#8 = 0xF0#8) := by
  revert op
  decide

/-- Settles O4: from 0xE0 up the opcode byte is of one of the two long forms, whose page and address are these numbers. -/
theorem longFormsDecodeTheirTarget : Obligations.LongFormsDecodeTheirTarget := by
  unfold Obligations.LongFormsDecodeTheirTarget
  intro op arg hop
  refine ⟨longPage op arg, longAddr arg, longPage_toNat op arg, longAddr_toNat arg, ?_⟩
  rcases longOpcode_cases hop with ⟨hlt, htl⟩ | ⟨hge, hcall⟩
  · rw [if_pos hlt, decodeOp_tl arg htl]
  · rw [if_neg hge, decodeOp_call arg hcall]

/-- Settles O5: the decoder evaluates every vector to the instruction of its row. -/
theorem specEncodingVectorsDecode : Obligations.SpecEncodingVectorsDecode := by
  unfold Obligations.SpecEncodingVectorsDecode
  and_intros <;> rfl

end Sys2Proof.Machine
end

section
/-! The step around the instruction: what is fetched and shown, the observation point, the cycle count, the skip gate, and
the steps a machine does not take (spec R100 to R115). -/

namespace Sys2Proof.Machine

open Sys2Proof.Safety

/-! ### The step of a byte that decodes and of one that does not -/

/-- With an instruction at `PC`, a step is its tail on the state with `FPC` captured and `PC` past it (spec R101 to R104). -/
theorem step_of_fetches {s : State} {i : Instr} (hs : running s) (hi : fetches s i) :
    step s = State.runFetched { s with fpc := s.pc, pc := advanceBy s.pc (bytesOf i) } i (bytesOf i) := by
  obtain ⟨hfault, hended⟩ := hs
  obtain ⟨op, arg, hfetch⟩ := fetch_of_fetches (s := s.capture) hi
  unfold step
  split
  · rename_i f hf
    rw [hfault] at hf
    cases hf
  · rw [if_neg (by simp [hended]), hfetch]
    rfl

/-- A byte no row covers faults at decode, before the observation point and the skip gate (spec R103, R113). -/
theorem step_of_undefined {s : State} (hs : running s) (hrow : rowOf (s.romRead s.pc) = none) :
    step s = .next { s with
      fpc := s.pc, pc := advance s.pc, fault := some (.unknownOpcode (s.romRead s.pc) s.pc) } := by
  obtain ⟨t, ht⟩ := step_exists_next hs
  obtain ⟨-, -, ⟨-, rfl⟩ | ⟨i, hi, -⟩⟩ := step_cases ht
  · exact ht
  · exact absurd hrow (rowOf_ne_none_of_fetches hi)

/-! ### The tail of a step -/

theorem runFetched_suppressed {s : State} (i : Instr) (n : Nat) (hended : s.observe.ended = false)
    (hskip : s.observe.skip = true) :
    s.runFetched i n = .next { s.observe with cyc := s.observe.cyc + n, skip := false } := by
  rw [State.runFetched, if_neg (by simp [hended]), if_pos hskip]
  rfl

theorem runFetched_executed {s : State} (i : Instr) (n : Nat) (hended : s.observe.ended = false)
    (hskip : s.observe.skip = false) : s.runFetched i n = exec i { s.observe with cyc := s.observe.cyc + n } := by
  rw [State.runFetched, if_neg (by simp [hended]), if_neg (by simp [hskip])]
  rfl

/-- A host whose next list is one `skip` toggles `SKIP` at the observation point and does nothing else (spec R206). -/
theorem observe_skip {s : State} {later : List (List HostAction)} (h : s.host = [HostAction.skip] :: later) :
    s.observe = { s with host := later, skip := !s.skip } := by
  rw [State.observe, h]
  rfl

/-- A step with no host attached and `SKIP` clear runs the instruction at `PC` (spec R109). -/
theorem step_executed {s : State} {i : Instr} (hs : running s) (hhost : s.host = []) (hskip : s.skip = false)
    (hi : fetches s i) :
    step s = exec i { s with fpc := s.pc, pc := advanceBy s.pc (bytesOf i), cyc := s.cyc + bytesOf i } := by
  have hobs := observe_none (s := { s with fpc := s.pc, pc := advanceBy s.pc (bytesOf i) }) hhost
  rw [step_of_fetches hs hi, runFetched_executed i _ (by rw [hobs]; exact hs.2) (by rw [hobs]; exact hskip), hobs]

/-- A step with no host attached and `SKIP` set passes the instruction at `PC` and clears `SKIP` (spec R107, R110). -/
theorem step_suppressed {s : State} {i : Instr} (hs : running s) (hhost : s.host = []) (hskip : s.skip = true)
    (hi : fetches s i) :
    step s = .next { s with
      fpc := s.pc, pc := advanceBy s.pc (bytesOf i), cyc := s.cyc + bytesOf i, skip := false } := by
  have hobs := observe_none (s := { s with fpc := s.pc, pc := advanceBy s.pc (bytesOf i) }) hhost
  rw [step_of_fetches hs hi, runFetched_suppressed i _ (by rw [hobs]; exact hs.2) (by rw [hobs]; exact hskip), hobs]

/-- Settles O6: without a host the observation point does nothing, and a clear `SKIP` lets the instruction execute. -/
theorem stepRunsTheDecodedInstruction : Obligations.StepRunsTheDecodedInstruction := by
  unfold Obligations.StepRunsTheDecodedInstruction
  exact fun s i hs hhost hskip hi => step_executed hs hhost hskip hi

/-- Settles O7: the tail of the step is this chain of decisions on the state the observation point leaves. -/
theorem stepWithHostRunsObservationFirst : Obligations.StepWithHostRunsObservationFirst := by
  unfold Obligations.StepWithHostRunsObservationFirst
  exact fun s i hs hi => ⟨atObservation s i, rfl, step_of_fetches hs hi⟩

/-- Settles O8: the skip gate comes before execution, so a suppressed instruction never gets to its fault. -/
theorem suppressedInstructionOnlyAdvances : Obligations.SuppressedInstructionOnlyAdvances := by
  unfold Obligations.SuppressedInstructionOnlyAdvances
  exact fun s i hs hhost hskip hi => step_suppressed hs hhost hskip hi

/-- Where the host toggles `SKIP` at this very observation point, the toggled `SKIP` is the one that decides (spec R107,
R206). -/
theorem runFetched_hostSkip {s : State} {later : List (List HostAction)} (i : Instr) (n : Nat) (hended : s.ended = false)
    (hhost : s.host = [HostAction.skip] :: later) :
    (s.skip = false → s.runFetched i n = .next { s with host := later, cyc := s.cyc + n, skip := false }) ∧
    (s.skip = true → s.runFetched i n = exec i { s with host := later, cyc := s.cyc + n, skip := false }) := by
  have hobs := observe_skip hhost
  have hobsEnded : s.observe.ended = false := by rw [hobs]; exact hended
  constructor <;> intro hskip
  · rw [runFetched_suppressed i n hobsEnded (by simp [hobs, hskip]), hobs]
  · rw [runFetched_executed i n hobsEnded (by simp [hobs, hskip]), hobs]
    simp only [hskip, Bool.not_true]

/-- Settles O9: the tail counts first and then reads `SKIP`, both on the state the observation point leaves, where a host's
`skip` has already been applied. -/
theorem cycleCountComesBeforeTheSkipGate : Obligations.CycleCountComesBeforeTheSkipGate := by
  unfold Obligations.CycleCountComesBeforeTheSkipGate
  constructor
  · refine fun s i hs hi => ⟨_, rfl, fun hended hskip => ?_, fun hended hskip => ?_, fun later hhost => ?_⟩
    · exact (step_of_fetches hs hi).trans (runFetched_suppressed i _ hended hskip)
    · exact (step_of_fetches hs hi).trans (runFetched_executed i _ hended hskip)
    · obtain ⟨hclear, hset⟩ := runFetched_hostSkip
        (s := { s with fpc := s.pc, pc := advanceBy s.pc (bytesOf i) }) i (bytesOf i) hs.2 hhost
      rw [step_of_fetches hs hi]
      exact ⟨_, rfl, hclear, hset⟩
  · refine fun s i n hended => ⟨runFetched_suppressed i n hended, runFetched_executed i n hended, ?_⟩
    intro later hrunning hskip hhost
    rw [(runFetched_hostSkip i n hrunning hhost).1 hskip, ← hskip]

/-- Settles O10: the bytes without a length are the bytes without a row, and a step at one of them is decided at decode. -/
theorem undefinedByteFaultsAtDecode : Obligations.UndefinedByteFaultsAtDecode := by
  unfold Obligations.UndefinedByteFaultsAtDecode
  exact ⟨undefinedBytes, rfl, opcodeLength_eq_none_iff, fun s hs hmem =>
    step_of_undefined hs ((rowOf_eq_none_iff _).mpr hmem)⟩

/-! ### What the observation point shows -/

/-- The bytes of a fetch: the argument byte is shown as 0x00 where the instruction has none (spec R104). -/
theorem fetch_bytes {s : State} {i : Instr} (hi : fetches s i) :
    s.fetch = .instruction i (s.romRead s.pc) (if bytesOf i = 2 then s.romRead (advance s.pc) else 0) (bytesOf i)
      { s with pc := advanceBy s.pc (bytesOf i) } := by
  obtain ⟨op, arg, hfetch⟩ := fetch_of_fetches hi
  obtain ⟨row, hrow, rfl⟩ := Option.map_eq_some_iff.mp hi
  have hlen := row_length (rowOf_mem hrow) (s.romRead s.pc) (s.romRead (advance s.pc))
  rw [hfetch]
  simp only [State.fetch, hrow] at hfetch
  split at hfetch <;> obtain ⟨-, rfl, rfl, -⟩ := Fetched.instruction.inj hfetch
  · rw [if_pos (by omega)]
  · rw [if_neg (by omega)]

theorem hits_atPc (s : State) (i : Instr) (pc : PC) : (Breakpoint.atPc pc).hits s i = true ↔ s.fpc = pc := beq_iff_eq

theorem hits_hiz (s : State) (i : Instr) : Breakpoint.hiz.hits s i = true ↔ i = .out ∧ s.bl = 15 := by
  simp [Breakpoint.hits]

/-- Settles O11: the observation reads the fetched bytes and the captured frame, before the skip gate is looked at. -/
theorem observationShowsEveryInstruction : Obligations.ObservationShowsEveryInstruction := by
  unfold Obligations.ObservationShowsEveryInstruction
  refine ⟨fun s i ⟨hfault, hended⟩ hi => ?_, hits_atPc, hits_hiz⟩
  simp only [observation, hfault, hended, fetch_bytes (s := s.capture) hi]
  rfl

/-! ### The machine that takes no step -/

theorem step_of_fault {s : State} {f : Fault} (h : s.fault = some f) : step s = .fault f := by
  simp only [step, h]

theorem step_of_ended {s : State} (hfault : s.fault = none) (hended : s.ended = true) : step s = .refused .runEnded := by
  simp only [step, hfault, hended, if_true]

/-- Settles O13: a machine without a fault either takes a step or is refused one because its run has ended. -/
theorem faultedMachineHasNoStep : Obligations.FaultedMachineHasNoStep := by
  unfold Obligations.FaultedMachineHasNoStep
  refine ⟨fun s f => ⟨fun h => ?_, step_of_fault⟩, fun s => step_of_ended⟩
  match hfault : s.fault, hended : s.ended with
  | some g, _ => rw [step_of_fault hfault] at h; cases h; rfl
  | none, true => rw [step_of_ended hfault hended] at h; cases h
  | none, false =>
    obtain ⟨t, ht⟩ := step_exists_next ⟨hfault, hended⟩
    rw [ht] at h
    cases h

/-! ### No operation -/

theorem advance_eq (pc : PC) : advance pc = ⟨pc.page, pc.addr + 1⟩ := by
  have haddr : BitVec.ofNat 6 ((pc.addr.toNat + 1) % 64) = pc.addr + 1 := by
    apply BitVec.eq_of_toNat_eq
    simp
  rw [advance, haddr]

/-- The step of a zero byte (spec R162, R109). -/
theorem step_nop {s : State} (hs : running s) (hhost : s.host = []) (hskip : s.skip = false)
    (hzero : s.romRead s.pc = 0) :
    step s = .next { s with fpc := s.pc, pc := ⟨s.pc.page, s.pc.addr + 1⟩, cyc := s.cyc + 1 } := by
  have hi : fetches s .nop := by
    rw [fetches, hzero]
    rfl
  rw [step_executed hs hhost hskip hi, ← advance_eq]
  rfl

/-- Settles O54: the row of 0x00 is found before the `ADX` range, and the step adds its advance and its count. -/
theorem nopChangesNothing : Obligations.NopChangesNothing := by
  unfold Obligations.NopChangesNothing
  exact fun s arg => ⟨rfl, rfl, step_nop⟩

/-- Settles O16, by induction on the number of steps: after the step of a zero byte the machine stands on the same page. -/
theorem zeroPageRunsForEver : Obligations.ZeroPageRunsForEver := by
  unfold Obligations.ZeroPageRunsForEver
  intro k
  induction k with
  | zero =>
    intro s _ _ _ _
    exact ⟨s.fpc, by rw [Nat.add_zero, BitVec.ofNat_toNat, BitVec.setWidth_eq]; rfl⟩
  | succ k ih =>
    intro s hs hhost hskip hzero
    obtain ⟨f, hrun⟩ := ih { s with fpc := s.pc, pc := ⟨s.pc.page, s.pc.addr + 1⟩, cyc := s.cyc + 1 } hs hhost hskip hzero
    have haddr : BitVec.ofNat 6 ((s.pc.addr + 1).toNat + k) = BitVec.ofNat 6 (s.pc.addr.toNat + (k + 1)) := by
      apply BitVec.eq_of_toNat_eq
      simp only [BitVec.toNat_ofNat, BitVec.toNat_add, BitVec.ofNat_eq_ofNat]
      omega
    refine ⟨f, ?_⟩
    rw [run_of_step (step_nop hs hhost hskip (hzero s.pc.addr)), hrun, haddr, Nat.add_right_comm s.cyc 1 k]
    rfl

/-! ### A word placed where the next step fetches -/

theorem advance_ne (pc : PC) : advance pc ≠ pc := by
  intro h
  have haddr := congrArg (fun q : PC => q.addr.toNat) h
  have := pc.addr.isLt
  simp only [advance_addr_toNat] at haddr
  omega

theorem romRead_withFetchWord_pc (s : State) (nbits w : Nat) :
    (s.withFetchWord nbits w).romRead s.pc = tableByte0 nbits w := by
  have hne : romIndex s.pc ≠ romIndex (advance s.pc) := fun h => advance_ne s.pc (romIndex_inj h).symm
  simp [State.withFetchWord, State.romRead, hne]

theorem romRead_withFetchWord_advance (s : State) (nbits w : Nat) :
    (s.withFetchWord nbits w).romRead (advance s.pc) = tableByte1 nbits w := by
  simp [State.withFetchWord, State.romRead]

/-- What a table word decodes to is what its two bytes decode to. -/
theorem decodeOp_of_decodeTableWord {nbits w : Nat} {i : Instr} (h : decodeTableWord nbits w = some i) :
    decodeOp (tableByte0 nbits w) (tableByte1 nbits w) = some i := by
  unfold decodeTableWord at h
  split at h
  · rename_i j rest hdecode
    cases h
    obtain ⟨op, arg, hop, ⟨hone, rfl, hbytes⟩ | ⟨-, hbytes⟩⟩ := decodeOp_of_decode hdecode
    · cases hbytes
      exact decodeOp_oneByte ((opcodeLength_of_decodeOp hop).trans (congrArg some hone)) hop _
    · cases hbytes
      exact hop
  · cases h

theorem fetches_withFetchWord (s : State) {nbits w : Nat} {i : Instr} (h : decodeTableWord nbits w = some i) :
    fetches (s.withFetchWord nbits w) i := by
  have hop := decodeOp_of_decodeTableWord h
  rw [← romRead_withFetchWord_pc s, ← romRead_withFetchWord_advance s] at hop
  exact hop

/-- Settles O17: the two bytes placed are two places of ROM, also across the end of a page, and the fetch reads them. -/
theorem placedWordIsExecutedNext : Obligations.PlacedWordIsExecutedNext := by
  unfold Obligations.PlacedWordIsExecutedNext
  exact fun s nbits w i hs hhost hskip h =>
    step_executed (s := s.withFetchWord nbits w) hs hhost hskip (fetches_withFetchWord s h)

end Sys2Proof.Machine
end

section
/-! What each instruction writes and what its outcome depends on (spec R44), and what whole steps keep by it: the skip flag,
the events, the ports, the page, the pointer and the invariant. -/

namespace Sys2Proof.Machine

open Sys2Proof.Safety

/-! ### A state with some fields taken from another -/

/-- `s` with the listed fields as they are in `t`. -/
def overwrite (s t : State) (fs : List Field) : State where
  a := if .a ∈ fs then t.a else s.a
  x := if .x ∈ fs then t.x else s.x
  bm := if .bm ∈ fs then t.bm else s.bm
  bl := if .bl ∈ fs then t.bl else s.bl
  sb := if .sb ∈ fs then t.sb else s.sb
  c := if .c ∈ fs then t.c else s.c
  skip := if .skip ∈ fs then t.skip else s.skip
  pc := if .pc ∈ fs then t.pc else s.pc
  fpc := if .fpc ∈ fs then t.fpc else s.fpc
  stack := if .stack ∈ fs then t.stack else s.stack
  ram := if .ram ∈ fs then t.ram else s.ram
  cyc := if .cyc ∈ fs then t.cyc else s.cyc
  port0 := if .port0 ∈ fs then t.port0 else s.port0
  port1 := if .port1 ∈ fs then t.port1 else s.port1
  port2 := if .port2 ∈ fs then t.port2 else s.port2
  hiz := if .hiz ∈ fs then t.hiz else s.hiz
  fault := if .fault ∈ fs then t.fault else s.fault
  events := if .events ∈ fs then t.events else s.events
  cfg := if .cfg ∈ fs then t.cfg else s.cfg
  host := if .host ∈ fs then t.host else s.host
  ended := if .ended ∈ fs then t.ended else s.ended

theorem agree_overwrite (s t : State) {fs : List Field} {f : Field} (h : f ∉ fs) : agree s (overwrite s t fs) f := by
  cases f <;> exact (if_neg h).symm

/-- Overwriting with fields the two states agree on changes nothing. -/
theorem overwrite_of_agree {s t : State} {fs : List Field} (h : ∀ f, f ∈ fs → agree t s f) : overwrite s t fs = s := by
  obtain ⟨⟩ := s
  simp only [overwrite, State.mk.injEq, ite_eq_right_iff]
  exact ⟨h .a, h .x, h .bm, h .bl, h .sb, h .c, h .skip, h .pc, h .fpc, h .stack, h .ram, h .cyc, h .port0, h .port1,
    h .port2, h .hiz, h .fault, h .events, h .cfg, h .host, h .ended⟩

/-! ### The frame of an instruction -/

/-- An effect is an update of the row's written fields. -/
theorem effect_eq_overwrite (s : State) (i : Instr) : effect s i = overwrite s (effect s i) (writes i) := by
  cases i <;> rfl

theorem effect_frame (s : State) {i : Instr} {f : Field} (h : f ∉ writes i) : agree s (effect s i) f := by
  rw [effect_eq_overwrite]
  exact agree_overwrite s _ h

theorem raise_frame (s : State) (g : Fault) {f : Field} (h : f ≠ .fault) : agree s (s.raise g) f :=
  agree_overwrite s (s.raise g) (fs := [.fault]) (by simpa using h)

theorem exec_frame {i : Instr} {s t : State} {f : Field} (h : exec i s = .next t) (hf : f ∉ writes i) (hfault : f ≠ .fault) :
    agree s t f := by
  obtain ⟨-, rfl⟩ | ⟨g, -, rfl⟩ := exec_cases h
  · exact effect_frame s hf
  · exact raise_frame s g hfault

/-- Settles O28: an effect updates the row's fields alone, and a fault writes `FAULT` alone. -/
theorem instructionWritesOnlyItsRow : Obligations.InstructionWritesOnlyItsRow := by
  unfold Obligations.InstructionWritesOnlyItsRow
  exact fun i s t f h hf hfault => exec_frame h hf hfault

/-! ### What the outcome of an instruction depends on -/

/-- The events an instruction without a fault puts out (spec R41). -/
def emitted (s : State) : Instr → List Event
  | .tpb p => [.portTest p (s.testedLevel p)]
  | .outl => [.outL s.a]
  | .out => [s.outEvent]
  | _ => []

theorem effect_events (s : State) (i : Instr) : (effect s i).events = s.events ++ emitted s i := by
  cases i with
  | tpb | outl | out => rfl
  | tr | tl | trs | call | rtn | lax | lbmx | lblx | lda | exc | exci | excd | exax | atx | exbm | exbl | ex | adx | add | adc
  | coma | incb | decb | tc | tm | tabl | rm | sc | rc | pat | dta | nop => exact (List.append_nil _).symm

theorem emitted_length (s : State) (i : Instr) : (emitted s i).length ≤ 1 := by
  cases i <;> simp [emitted]

/-- A piece of state ends the same after two effects, or both keep it. -/
def SameOutcome (i : Instr) (s u : State) (f : Field) : Prop :=
  agree (effect s i) (effect u i) f ∨ (agree s (effect s i) f ∧ agree u (effect u i) f)

theorem or_same_or_kept (x y c : Bool) : (x || c) = (y || c) ∨ (x = (x || c) ∧ y = (y || c)) := by
  cases c <;> simp

theorem ite_same_or_kept {α : Type} (c : Prop) [Decidable c] (v x y : α) :
    (if c then v else x) = (if c then v else y) ∨ (x = (if c then v else x) ∧ y = (if c then v else y)) := by
  by_cases h : c <;> simp [h]

/-- Where `u` has what `i` reads from `s`, each field `i` writes ends the same, or, for the conditional writes to `SKIP`, the
latch and the ports, is kept in both. -/
theorem effect_sameOutcome (i : Instr) (s u : State) :
    ∀ f ∈ writes i, f ≠ .events → SameOutcome i s (overwrite u s (reads i)) f := by
  cases i <;> simp only [writes, List.forall_mem_cons]
  case nop => nofun
  case outl => exact ⟨fun h => absurd rfl h, nofun⟩
  case tr | tl | lax | lbmx | lblx | atx | add | coma | rm | sc | rc => exact ⟨fun _ => .inl rfl, nofun⟩
  case trs | call | rtn | lda | exax | exbm | exbl | pat => exact ⟨fun _ => .inl rfl, fun _ => .inl rfl, nofun⟩
  case exc | ex => exact ⟨fun _ => .inl rfl, fun _ => .inl rfl, fun _ => .inl rfl, nofun⟩
  case exci | excd =>
    exact ⟨fun _ => .inl rfl, fun _ => .inl rfl, fun _ => .inl rfl, fun _ => or_same_or_kept _ _ _, fun _ => .inl rfl, nofun⟩
  case tc | tm | tabl => exact ⟨fun _ => or_same_or_kept _ _ _, nofun⟩
  case adx | incb | decb => exact ⟨fun _ => .inl rfl, fun _ => or_same_or_kept _ _ _, nofun⟩
  case adc => exact ⟨fun _ => .inl rfl, fun _ => .inl rfl, fun _ => or_same_or_kept _ _ _, nofun⟩
  case dta => exact ⟨fun _ => ite_same_or_kept _ _ _ _, nofun⟩
  case tpb => exact ⟨fun _ => or_same_or_kept _ _ _, fun _ => ite_same_or_kept _ _ _ _, fun h => absurd rfl h, nofun⟩
  case out => exact ⟨fun _ => ite_same_or_kept _ _ _ _, fun _ => ite_same_or_kept _ _ _ _, fun h => absurd rfl h, nofun⟩

theorem emitted_overwrite (i : Instr) (s u : State) : emitted (overwrite u s (reads i)) i = emitted s i := by
  cases i <;> rfl

/-- Whether an instruction faults is decided by what its row reads (spec R44, R180). -/
theorem faultOf_overwrite (i : Instr) (s u : State) : faultOf (overwrite u s (reads i)) i = none ↔ faultOf s i = none := by
  cases i with
  | trs t => exact (pushFault_none (s := overwrite u s _)).trans (pushFault_none (s := s)).symm
  | call p a =>
    have hpush : pushFault (overwrite u s (reads (.call p a))) = none ↔ pushFault s = none :=
      (pushFault_none (s := overwrite u s _)).trans (pushFault_none (s := s)).symm
    simp only [faultOf]
    cases hs : pushFault s with
    | none => rw [hpush.mpr hs]
    | some f =>
      cases hu : pushFault (overwrite u s (reads (.call p a))) with
      | none => rw [hpush.mp hu] at hs; cases hs
      | some g => exact ⟨nofun, nofun⟩
  | rtn => simp only [faultOf, ite_eq_right_iff, reduceCtorEq]; rfl
  | lda | exc | exci | excd | add | adc | tm | rm => exact ramFault_none.trans ramFault_none.symm
  | tl | tpb | tr | lax | lbmx | lblx | exax | atx | exbm | exbl | ex | adx | coma | incb | decb | tc | tabl | sc | rc
  | outl | out | pat | dta | nop => rfl

/-- Settles O29: overwriting a state with fields it already agrees on changes nothing, so the two states are one as far as
the instruction reads; a fault keeps everything in both. -/
theorem instructionReadsOnlyItsRow : Obligations.InstructionReadsOnlyItsRow := by
  unfold Obligations.InstructionReadsOnlyItsRow
  intro i s u t v hreads hs hu ht hv
  have hsame := effect_sameOutcome i s u
  have hemit := emitted_overwrite i s u
  have hfault := faultOf_overwrite i s u
  rw [overwrite_of_agree hreads] at hsame hemit hfault
  obtain ⟨hsNone, rfl⟩ | ⟨g, hsSome, rfl⟩ := exec_cases ht <;>
    obtain ⟨huNone, rfl⟩ | ⟨g', huSome, rfl⟩ := exec_cases hv
  · refine ⟨hsame, ⟨emitted s i, effect_events s i, hemit ▸ effect_events u i⟩, ?_⟩
    rw [effect_fault, effect_fault, hs, hu]
  · rw [hfault.mpr hsNone] at huSome
    cases huSome
  · rw [hfault.mp huNone] at hsSome
    cases hsSome
  · refine ⟨fun f hf _ => .inr ?_, ⟨[], (List.append_nil _).symm, (List.append_nil _).symm⟩, by simp⟩
    have hne : f ≠ .fault := by
      rintro rfl
      cases i <;> simp [writes] at hf
    exact ⟨raise_frame s g hne, raise_frame u g' hne⟩

/-! ### What a step with a host keeps -/

theorem atObservation_pc (s : State) (i : Instr) : (atObservation s i).pc = advanceBy s.pc (bytesOf i) := by
  obtain ⟨_, _, _, _, _, _, _, h⟩ := observe_frame { s with fpc := s.pc, pc := advanceBy s.pc (bytesOf i) }
  rw [atObservation, h]

theorem atObservation_stack (s : State) (i : Instr) : (atObservation s i).stack = s.stack := by
  obtain ⟨_, _, _, _, _, _, _, h⟩ := observe_frame { s with fpc := s.pc, pc := advanceBy s.pc (bytesOf i) }
  rw [atObservation, h]

theorem atObservation_events (s : State) (i : Instr) : (atObservation s i).events = s.events := by
  obtain ⟨_, _, _, _, _, _, _, h⟩ := observe_frame { s with fpc := s.pc, pc := advanceBy s.pc (bytesOf i) }
  rw [atObservation, h]

theorem exec_events {i : Instr} {s t : State} (h : exec i s = .next t) :
    ∃ es, t.events = s.events ++ es ∧ es.length ≤ 1 := by
  obtain ⟨-, rfl⟩ | ⟨g, -, rfl⟩ := exec_cases h
  · exact ⟨emitted s i, effect_events s i, emitted_length s i⟩
  · exact ⟨[], (List.append_nil _).symm, Nat.zero_le 1⟩

/-- Settles O22: the host puts out no event, and an instruction appends what it emits, at most one. -/
theorem eventsAreOnlyAppended : Obligations.EventsAreOnlyAppended := by
  unfold Obligations.EventsAreOnlyAppended
  intro s t h
  obtain ⟨-, -, ⟨-, rfl⟩ | ⟨i, -, ⟨-, rfl⟩ | ⟨-, -, rfl⟩ | ⟨-, -, hexec⟩⟩⟩ := step_cases h
  · exact ⟨[], (List.append_nil _).symm, Nat.zero_le 1⟩
  · exact ⟨[], by rw [atObservation_events, List.append_nil], Nat.zero_le 1⟩
  · exact ⟨[], by rw [← atObservation_events s i, List.append_nil], Nat.zero_le 1⟩
  · have hevents := exec_events hexec
    rw [← atObservation_events s i]
    exact hevents

/-! ### The page of `PC` and the pointer -/

theorem advanceBy_page (pc : PC) (n : Nat) : (advanceBy pc n).page = pc.page := by
  induction n generalizing pc with
  | zero => rfl
  | succ n ih => exact (ih (advance pc)).trans (advance_page pc)

/-- Of the five instructions that write `PC`, `TR` takes its page from `PC` (spec R120). -/
theorem effect_page (s : State) (i : Instr) :
    (effect s i).pc.page = s.pc.page ∨ (∃ p a, i = .tl p a ∨ i = .call p a) ∨ (∃ e, i = .trs e) ∨ i = .rtn := by
  cases i with
  | tl p a => exact .inr (.inl ⟨p, a, .inl rfl⟩)
  | call p a => exact .inr (.inl ⟨p, a, .inr rfl⟩)
  | trs t => exact .inr (.inr (.inl ⟨t, rfl⟩))
  | rtn => exact .inr (.inr (.inr rfl))
  | tr | lax | lbmx | lblx | lda | exc | exci | excd | exax | atx | exbm | exbl | ex | adx | add | adc | coma | incb | decb | tc
  | tm | tabl | tpb | rm | sc | rc | outl | out | pat | dta | nop => exact .inl rfl

/-- Settles O30: neither the fetch nor the host changes the page, and of the instructions only these four do. -/
theorem onlyLongTransfersChangeThePage : Obligations.OnlyLongTransfersChangeThePage := by
  unfold Obligations.OnlyLongTransfersChangeThePage
  intro s t i hi h hpage
  have hobs : (atObservation s i).pc.page = s.pc.page := by rw [atObservation_pc, advanceBy_page]
  obtain ⟨-, -, ⟨hnone, -⟩ | ⟨j, hj, hcase⟩⟩ := step_cases h
  · exact absurd hnone (rowOf_ne_none_of_fetches hi)
  obtain rfl := fetches_unique hi hj
  obtain ⟨-, rfl⟩ | ⟨-, -, rfl⟩ | ⟨-, -, hexec⟩ := hcase
  · exact absurd hobs hpage
  · exact absurd hobs hpage
  obtain ⟨-, rfl⟩ | ⟨g, -, rfl⟩ := exec_cases hexec
  · exact (effect_page _ i).resolve_left fun heq => hpage (heq.trans hobs)
  · exact absurd hobs hpage

/-- A two-bit exclusive-or changes only the low two bits of `BM` (spec R23). -/
theorem xorBm_toNat (bm : Nibble) (m : BitVec 2) : (bm ^^^ m.setWidth 4).toNat = bm.toNat ^^^ m.toNat := by
  rw [BitVec.toNat_xor, BitVec.toNat_setWidth, Nat.mod_eq_of_lt (by have := m.isLt; omega)]

theorem xorBm_lt {bm : Nibble} (m : BitVec 2) (h : bm.toNat < 4) : (bm ^^^ m.setWidth 4).toNat < 4 := by
  rw [xorBm_toNat]
  exact Nat.xor_lt_two_pow (n := 2) h m.isLt

/-- Settles O31: the four exclusive-ors of `BM` keep it below 4, and every other instruction but the three keeps `BM`. -/
theorem pointerLeavesRamOnlyByThree : Obligations.PointerLeavesRamOnlyByThree := by
  unfold Obligations.PointerLeavesRamOnlyByThree
  intro i s t h hs ht
  obtain ⟨-, rfl⟩ | ⟨g, -, rfl⟩ := exec_cases h
  · cases i with
    | lbmx n => exact .inl ⟨n, rfl⟩
    | exbm => exact .inr (.inl rfl)
    | ex => exact .inr (.inr rfl)
    | lda m | exc m | exci m | excd m => exact absurd ht (Nat.not_le.mpr (xorBm_lt m hs))
    | tr | tl | trs | call | rtn | lax | lblx | exax | atx | exbl | adx | add | adc | coma | incb | decb | tc | tm | tabl | tpb
    | rm | sc | rc | outl | out | pat | dta | nop => exact absurd ht (Nat.not_le.mpr hs)
  · exact absurd ht (Nat.not_le.mpr hs)

/-! ### A step without a host -/

theorem atObservation_noHost {s : State} (hhost : s.host = []) (i : Instr) :
    atObservation s i = { s with fpc := s.pc, pc := advanceBy s.pc (bytesOf i) } := observe_none hhost

/-- The three ways a step without a host answers a next state. -/
theorem step_cases_noHost {s t : State} (hhost : s.host = []) (h : step s = .next t) :
    (rowOf (s.romRead s.pc) = none ∧
        t = { s with fpc := s.pc, pc := advance s.pc, fault := some (.unknownOpcode (s.romRead s.pc) s.pc) }) ∨
      ∃ i, fetches s i ∧
        ((s.skip = true ∧ t = { s with
            fpc := s.pc, pc := advanceBy s.pc (bytesOf i), cyc := s.cyc + bytesOf i, skip := false }) ∨
          (s.skip = false ∧
            exec i { s with fpc := s.pc, pc := advanceBy s.pc (bytesOf i), cyc := s.cyc + bytesOf i } = .next t)) := by
  obtain ⟨-, hended, hundefined | ⟨i, hi, hcase⟩⟩ := step_cases h
  · exact .inl hundefined
  rw [atObservation_noHost hhost] at hcase
  refine .inr ⟨i, hi, ?_⟩
  obtain ⟨hquit, -⟩ | ⟨-, hskip, rfl⟩ | ⟨-, hskip, hexec⟩ := hcase
  · exact absurd hquit (by simp [hended])
  · exact .inl ⟨hskip, rfl⟩
  · exact .inr ⟨hskip, hexec⟩

/-- R28's list is the `SKIP` column of R44. -/
theorem setsSkip_eq (i : Instr) : setsSkip i = decide (Field.skip ∈ writes i) := by
  cases i <;> rfl

/-- Settles O15: a suppressed instruction leaves `SKIP` clear, and an executed one found it clear and could set it only by
its row. -/
theorem skipsDoNotChain : Obligations.SkipsDoNotChain := by
  unfold Obligations.SkipsDoNotChain
  intro s t i hhost hi h ht
  obtain ⟨hnone, -⟩ | ⟨j, hj, hcase⟩ := step_cases_noHost hhost h
  · exact absurd hnone (rowOf_ne_none_of_fetches hi)
  obtain rfl := fetches_unique hi hj
  obtain ⟨-, rfl⟩ | ⟨hskip, hexec⟩ := hcase
  · cases ht
  refine ⟨hskip, ?_⟩
  rw [setsSkip_eq, decide_eq_true_eq]
  by_contra hwrites
  have hkept := exec_frame (f := .skip) hexec hwrites nofun
  change s.skip = t.skip at hkept
  rw [← hkept, hskip] at ht
  cases ht

theorem writes_port2 {i : Instr} (h : Field.port2 ∈ writes i) : i = .out := by
  cases i with
  | out => rfl
  | _ => simp [writes] at h

theorem writes_port1 {i : Instr} (h : Field.port1 ∈ writes i) : ∃ p, i = .tpb p := by
  cases i with
  | tpb p => exact ⟨p, rfl⟩
  | _ => simp [writes] at h

/-- `PORT[2]` is `OUT`'s (spec R172, D1). -/
theorem exec_port2 {i : Instr} {s t : State} (h : exec i s = .next t) (hne : t.port2 ≠ s.port2) : i = .out := by
  by_contra hi
  exact hne (exec_frame (f := .port2) h (fun hmem => hi (writes_port2 hmem)) nofun).symm

/-- `PORT[1]` is `TPB 1`'s (spec R199, D10). -/
theorem exec_port1 {i : Instr} {s t : State} (h : exec i s = .next t) (hne : t.port1 ≠ s.port1) : i = .tpb 1 := by
  by_cases hmem : Field.port1 ∈ writes i
  · obtain ⟨p, rfl⟩ := writes_port1 hmem
    obtain ⟨-, rfl⟩ | ⟨g, -, rfl⟩ := exec_cases h
    · by_contra hp
      exact hne (if_neg fun hone => hp (congrArg Instr.tpb hone))
    · exact absurd rfl hne
  · exact absurd (exec_frame (f := .port1) h hmem nofun).symm hne

/-- Settles O23: without a host only the executed instruction can write a port, and the row of each port names one. -/
theorem withoutHostPortsChangeByInstructionOnly : Obligations.WithoutHostPortsChangeByInstructionOnly := by
  unfold Obligations.WithoutHostPortsChangeByInstructionOnly
  intro s t hhost h
  obtain ⟨-, rfl⟩ | ⟨i, hi, ⟨-, rfl⟩ | ⟨-, hexec⟩⟩ := step_cases_noHost hhost h
  · exact ⟨rfl, hhost, rfl, fun hne => absurd rfl hne, fun hne => absurd rfl hne⟩
  · exact ⟨rfl, hhost, rfl, fun hne => absurd rfl hne, fun hne => absurd rfl hne⟩
  · have hunwritten := exec_unwritten hexec
    simp only [State.unwritten, Prod.mk.injEq] at hunwritten
    obtain ⟨-, -, hport0, -, hhost', hended⟩ := hunwritten
    exact ⟨hport0, hhost'.trans hhost, hended, fun hne => exec_port2 hexec hne ▸ hi, fun hne => exec_port1 hexec hne ▸ hi⟩

/-! ### The invariant -/

theorem inv_of_eq {s t : State} (hs : Safety.Inv s) (hstack : t.stack = s.stack) (hram : t.ram = s.ram) (hcfg : t.cfg = s.cfg) :
    Safety.Inv t := by
  simpa only [Safety.Inv, hstack, hram, hcfg] using hs

theorem inv_atObservation {s : State} (hs : Safety.Inv s) (i : Instr) : Safety.Inv (atObservation s i) := by
  obtain ⟨hstack, hram, hrom, hsamples⟩ := hs
  refine ⟨?_, observe_ramWf (s := { s with fpc := s.pc, pc := advanceBy s.pc (bytesOf i) }) hram, ?_, ?_⟩
  · rwa [atObservation_stack]
  · rwa [atObservation_cfg]
  · rwa [atObservation_cfg]

/-- A push without a fault found room, so it makes a depth of at most 4 (spec R31, R33). -/
theorem effect_stack_length {s : State} {i : Instr} (hnone : faultOf s i = none) (hs : s.stack.length ≤ stackDepth) :
    (effect s i).stack.length ≤ stackDepth := by
  have hpushed : pushFault s = none → (s.pc :: s.stack).length ≤ stackDepth := fun h =>
    Nat.lt_of_le_of_ne hs (pushFault_none.mp h)
  cases i with
  | trs t => exact hpushed hnone
  | call p a =>
    refine hpushed ?_
    simp only [faultOf] at hnone
    split at hnone
    · cases hnone
    · assumption
  | rtn => exact Nat.le_trans (by simp [effect]) hs
  | tr | tl | lax | lbmx | lblx | lda | exc | exci | excd | exax | atx | exbm | exbl | ex | adx | add | adc | coma | incb | decb
  | tc | tm | tabl | tpb | rm | sc | rc | outl | out | pat | dta | nop => exact hs

/-- A store without a fault has its pointer in RAM, so it keeps RAM's canonical form (spec R52, R54). -/
theorem effect_ramWf {s : State} {i : Instr} (hnone : faultOf s i = none) (hs : Mem.wf ramCells s.ram = true) :
    Mem.wf ramCells (effect s i).ram = true := by
  cases i with
  | exc | exci | excd | rm => exact Mem.wf_write _ ((b_inRam s).mpr (ramFault_none.mp hnone)) hs
  | tr | tl | trs | call | rtn | lax | lbmx | lblx | lda | exax | atx | exbm | exbl | ex | adx | add | adc | coma | incb | decb
  | tc | tm | tabl | tpb | sc | rc | outl | out | pat | dta | nop => exact hs

theorem exec_inv {i : Instr} {s t : State} (h : exec i s = .next t) (hs : Safety.Inv s) : Safety.Inv t := by
  have hcfg := exec_cfg h
  obtain ⟨hstack, hram, hrom, hsamples⟩ := hs
  obtain ⟨hnone, rfl⟩ | ⟨g, -, rfl⟩ := exec_cases h
  · exact ⟨effect_stack_length hnone hstack, effect_ramWf hnone hram, by rwa [hcfg], by rwa [hcfg]⟩
  · exact ⟨hstack, hram, hrom, hsamples⟩

/-- Settles O20: the fetch keeps stack, RAM and configuration, the host stores inside RAM, and an instruction that would
overfill the stack or store outside RAM faults instead. -/
theorem everyStepKeepsTheInvariant : Obligations.EveryStepKeepsTheInvariant := by
  unfold Obligations.EveryStepKeepsTheInvariant
  intro s t hs h
  obtain ⟨-, -, ⟨-, rfl⟩ | ⟨i, -, ⟨-, rfl⟩ | ⟨-, -, rfl⟩ | ⟨-, -, hexec⟩⟩⟩ := step_cases h
  · exact inv_of_eq hs rfl rfl rfl
  · exact inv_atObservation hs i
  · exact inv_of_eq (inv_atObservation hs i) rfl rfl rfl
  · exact exec_inv hexec (inv_of_eq (inv_atObservation hs i) rfl rfl rfl)

end Sys2Proof.Machine
end

section
/-! The host's actions, the launch and reset (spec R45, R201, R206, R220, R224, R226). -/

namespace Sys2Proof.Machine

open Sys2Proof.Safety

/-! ### The host's actions -/

theorem hostAct_poke {s : State} {addr val : Nat} (haddr : addr < ramCells) (hval : val < 16) :
    s.hostAct (.poke addr val) = { s with ram := Mem.write s.ram addr (BitVec.ofNat 4 val) } := if_pos ⟨haddr, hval⟩

theorem hostAct_poke_outOfRange {s : State} {addr val : Nat} (h : ramCells ≤ addr ∨ 16 ≤ val) :
    s.hostAct (.poke addr val) = s := if_neg (by omega)

theorem hostAct_port_tooBig {s : State} {n val : Nat} (h : 16 ≤ val) : s.hostAct (.port n val) = s := if_pos h

theorem hostAct_port {s : State} {val : Nat} (h : val < 16) :
    s.hostAct (.port 0 val) = { s with port0 := BitVec.ofNat 4 val } ∧
    s.hostAct (.port 1 val) = { s with port1 := BitVec.ofNat 4 val } ∧
    s.hostAct (.port 2 val) = { s with port2 := BitVec.ofNat 4 val } := by
  have hval : ¬ 16 ≤ val := by omega
  exact ⟨if_neg hval, if_neg hval, if_neg hval⟩

theorem hostAct_port_noSuch {s : State} {n : Nat} (val : Nat) (h : 2 < n) : s.hostAct (.port n val) = s := by
  simp only [State.hostAct]
  split
  · rfl
  · rw [if_neg (by omega), if_neg (by omega), if_neg (by omega)]

theorem observe_cons {s : State} {acts : List HostAction} {later : List (List HostAction)} (h : s.host = acts :: later) :
    s.observe = State.hostActs { s with host := later } acts := by
  rw [State.observe, h]

theorem hostActs_of_ne_quit {act : HostAction} (s : State) (acts : List HostAction) (h : act ≠ .quit) :
    s.hostActs (act :: acts) = (s.hostAct act).hostActs acts := by
  rw [hostActs_cons, if_neg h]

/-- Settles O24: no action of a list writes more than the frame of a single action. -/
theorem hostActionsWriteOnlyPortsRamSkip : Obligations.HostActionsWriteOnlyPortsRamSkip := by
  unfold Obligations.HostActionsWriteOnlyPortsRamSkip
  intro s acts
  obtain ⟨_, _, _, _, _, _, h⟩ := hostActs_frame acts s
  exact ⟨_, h.symm, rfl, rfl, rfl, rfl, rfl, rfl, rfl, rfl, rfl, rfl, rfl, rfl, rfl, rfl⟩

/-- Settles O25: the range checks decide what `poke` and `port` write, and a list is applied action by action up to `q`. -/
theorem hostActionsDoWhatTheirCommandSays : Obligations.HostActionsDoWhatTheirCommandSays := by
  unfold Obligations.HostActionsDoWhatTheirCommandSays
  intro s addr val n act acts later
  refine ⟨fun haddr hval => ?_, hostAct_poke_outOfRange, hostAct_port, fun h => ?_, rfl, rfl, rfl, rfl, observe_none,
    observe_cons, rfl, hostActs_of_ne_quit s acts, rfl⟩
  · exact ⟨_, (hostAct_poke haddr hval).symm, rfl, fun b => Mem.read_write s.ram addr b _⟩
  · exact h.elim (hostAct_port_noSuch val) hostAct_port_tooBig

/-! ### The launch -/

/-- Rising from `lo` on means that no timestamp is below `lo` and none is below an earlier one (spec R201). -/
theorem samplesRise_iff (table : List Sample) (lo : Nat) :
    samplesRise lo table = true ↔ (∀ x ∈ table, lo ≤ x.ts) ∧ table.Pairwise (fun x y => x.ts ≤ y.ts) := by
  induction table generalizing lo with
  | nil => simp [samplesRise]
  | cons e rest ih =>
    simp only [samplesRise, Bool.and_eq_true, decide_eq_true_eq, ih, List.forall_mem_cons, List.pairwise_cons]
    constructor
    · rintro ⟨hlo, hrest, hpair⟩
      exact ⟨⟨hlo, fun x hx => Nat.le_trans hlo (hrest x hx)⟩, hrest, hpair⟩
    · rintro ⟨⟨hlo, -⟩, hrest, hpair⟩
      exact ⟨hlo, hrest, hpair⟩

theorem samplesWf_some_iff (table : List Sample) :
    samplesWf (some table) = true ↔ table.length ≤ 100 ∧ table.Pairwise (fun x y => x.ts ≤ y.ts) := by
  change samplesWf (some table) = true ↔ table.length ≤ sampleMax ∧ _
  simp [samplesWf, samplesRise_iff]

theorem read_imageCells_below (image : List Byte) {n a : Nat} (h : a < n) : Mem.read (imageCells n image) a = 0 := by
  induction image generalizing n with
  | nil => rfl
  | cons b rest ih =>
    simp only [imageCells]
    split
    · exact ih (by omega)
    · rw [Mem.read, if_neg (by omega)]
      exact ih (by omega)

/-- Listing no zero bytes changes no read, since an unlisted byte reads 0x00 (spec R51, R224). -/
theorem read_imageCells (image : List Byte) (n k : Nat) : Mem.read (imageCells n image) (n + k) = image.getD k 0 := by
  induction image generalizing n k with
  | nil => rfl
  | cons b rest ih =>
    cases k with
    | zero =>
      simp only [imageCells]
      split
      · rw [read_imageCells_below rest (by omega)]
        exact Eq.symm ‹_›
      · exact if_pos rfl
    | succ k =>
      have hnext : Mem.read (imageCells (n + 1) rest) (n + (k + 1)) = rest.getD k 0 := by
        rw [← ih (n + 1) k, Nat.add_right_comm, Nat.add_assoc]
      simp only [imageCells]
      split
      · exact hnext
      · rw [Mem.read, if_neg (by omega)]
        exact hnext

theorem imageCells_wfFrom {size n : Nat} (image : List Byte) (h : n + image.length ≤ size) :
    Mem.wfFrom size n (imageCells n image) = true := by
  induction image generalizing n with
  | nil => rfl
  | cons b rest ih =>
    rw [List.length_cons] at h
    have hrest := ih (n := n + 1) (by omega)
    simp only [imageCells]
    split
    · exact Mem.wfFrom_mono (Nat.le_succ n) hrest
    · simp only [Mem.wfFrom, Bool.and_eq_true, decide_eq_true_eq, bne_iff_ne]
      exact ⟨⟨⟨Nat.le_refl n, by omega⟩, ‹_›⟩, hrest⟩

theorem launch_ok {image : List Byte} {samples : Option (List Sample)} (secret : BitVec 64) (pre : Nibble)
    (himage : image.length ≤ romBytes) (hsamples : samplesWf samples = true) :
    launch image samples secret pre = .next (State.ofConfig
      { rom := imageCells 0 image, samples := samples, secret := secret, p1PreLevel := pre }) := by
  rw [launch, if_neg (by omega), if_pos hsamples]

theorem launch_imageTooLong {image : List Byte} (samples : Option (List Sample)) (secret : BitVec 64) (pre : Nibble)
    (h : romBytes < image.length) : launch image samples secret pre = .refused .imageTooLong := if_pos h

theorem launch_samplesIllFormed {image : List Byte} {samples : Option (List Sample)} (secret : BitVec 64) (pre : Nibble)
    (himage : image.length ≤ romBytes) (hsamples : samplesWf samples = false) :
    launch image samples secret pre = .refused .samplesIllFormed := by
  rw [launch, if_neg (by omega), if_neg (by simp [hsamples])]

/-- The state after reset has the invariant where its configuration has the two forms. -/
theorem inv_ofConfig {cfg : Config} (hrom : Mem.wf romBytes cfg.rom = true) (hsamples : samplesWf cfg.samples = true) :
    Safety.Inv (State.ofConfig cfg) := ⟨Nat.zero_le _, rfl, hrom, hsamples⟩

/-- Settles O26: the two checks of the launch decide its outcome, and the cells it lists read as the image does. -/
theorem launchLaysOutTheImage : Obligations.LaunchLaysOutTheImage := by
  unfold Obligations.LaunchLaysOutTheImage
  refine ⟨rfl, samplesWf_some_iff, fun image samples secret pre => ⟨fun himage hsamples => ?_,
    launch_imageTooLong samples secret pre, launch_samplesIllFormed secret pre⟩⟩
  refine ⟨_, launch_ok secret pre himage hsamples, rfl, rfl, rfl, rfl, inv_ofConfig ?_ hsamples, fun pc => ?_⟩
  · exact imageCells_wfFrom image (by simpa [romBytes] using himage)
  · have hread := read_imageCells image 0 (romIndex pc)
    rw [Nat.zero_add] at hread
    exact hread

/-! ### Reset -/

/-- Settles O18: reset writes every field but the configuration with a constant. -/
theorem resetLeavesTheSpecState : Obligations.ResetLeavesTheSpecState := by
  unfold Obligations.ResetLeavesTheSpecState
  refine ⟨rfl, ?_⟩
  rintro s _ rfl
  exact ⟨rfl, rfl, rfl, rfl, rfl, rfl, rfl, rfl, rfl, fun _ => rfl, rfl, rfl, rfl, rfl, rfl, rfl, rfl, rfl, rfl, rfl⟩

/-- Settles O19: the empty image and the missing table have the two forms of a configuration. -/
theorem invariantHoldsAtReset : Obligations.InvariantHoldsAtReset := by
  unfold Obligations.InvariantHoldsAtReset
  exact inv_ofConfig rfl rfl

end Sys2Proof.Machine
end

section
/-! Control transfer, loads and register moves (spec R120 to R126, R130 to R141). -/

namespace Sys2Proof.Machine

/-! ### Jumps and calls -/

/-- Settles O32: `TR` has no check, and `TL` writes `PC` after its range check alone. -/
theorem jumpsWriteOnlyThePc : Obligations.JumpsWriteOnlyThePc := by
  unfold Obligations.JumpsWriteOnlyThePc
  refine fun s p a => ⟨rfl, fun hp => ?_, exec_tl_romPage a s⟩
  rw [BitVec.ofNat_toNat]
  exact exec_tl a s hp

/-- Settles O34: the check of the stack comes first, the check of the page second, and both before the push. -/
theorem longCallChecksThenPushesThenJumps : Obligations.LongCallChecksThenPushesThenJumps := by
  unfold Obligations.LongCallChecksThenPushesThenJumps
  refine fun s p a => ⟨fun hroom hp => ?_, exec_call_full p a, exec_call_romPage a⟩
  rw [BitVec.ofNat_toNat]
  exact exec_call a hroom hp

/-- A call that did not fault pushed its `PC` and went to its target, and did nothing else. -/
theorem effect_of_call {i : Instr} (s : State) (hi : (∃ p a, i = .call p a) ∨ (∃ e, i = .trs e)) :
    effect s i = { s with pc := (effect s i).pc, stack := s.pc :: s.stack } := by
  rcases hi with ⟨p, a, rfl⟩ | ⟨e, rfl⟩ <;> rfl

/-- Settles O36: a call that leaves no fault pushed the address the return pops, and wrote nothing else but `PC`. -/
theorem returnUndoesACall : Obligations.ReturnUndoesACall := by
  unfold Obligations.ReturnUndoesACall
  intro s t u i hi hs h ht hu
  obtain ⟨-, rfl⟩ | ⟨f, -, rfl⟩ := exec_cases h
  · have hcall := effect_of_call s hi
    have hstack : (effect s i).stack = s.pc :: s.stack := by rw [hcall]
    rw [hstack] at hu ⊢
    exact ⟨exec_rtn_pops hu, hcall⟩
  · cases ht

/-! ### Pointer and register moves -/

/-- Settles O38: `B` is read off its two halves. -/
theorem pointerLoadsWriteOneNibble : Obligations.PointerLoadsWriteOneNibble := by
  unfold Obligations.PointerLoadsWriteOneNibble
  exact fun s n => ⟨⟨_, rfl, rfl, b_toNat _⟩, ⟨_, rfl, rfl, b_toNat _⟩⟩

/-- Settles O39: each of the five bytes has a row of its own, and swapping two registers twice puts both back. -/
theorem registerMovesExchangeNibbles : Obligations.RegisterMovesExchangeNibbles := by
  unfold Obligations.RegisterMovesExchangeNibbles
  refine fun s arg => ⟨rfl, rfl, rfl, rfl, rfl, ?_⟩
  rintro i t (rfl | rfl | rfl) h <;> cases h <;> rfl

theorem joinNibbles_high_low (v : Byte) : joinNibbles (highNibble v) (lowNibble v) = v := by
  apply BitVec.eq_of_toNat_eq
  rw [joinNibbles_toNat, highNibble_toNat, lowNibble_toNat, Nat.div_add_mod]

theorem highNibble_join (hi lo : Nibble) : highNibble (joinNibbles hi lo) = hi := by
  apply BitVec.eq_of_toNat_eq
  have := lo.isLt
  rw [highNibble_toNat, joinNibbles_toNat]
  omega

theorem lowNibble_join (hi lo : Nibble) : lowNibble (joinNibbles hi lo) = lo := by
  apply BitVec.eq_of_toNat_eq
  have := lo.isLt
  rw [lowNibble_toNat, joinNibbles_toNat]
  omega

/-- Settles O40: the two halves of `SB` join to `SB`, and the halves of the joined `B` are the old `BM` and `BL`. -/
theorem exchangeOfPointerAndShadow : Obligations.ExchangeOfPointerAndShadow := by
  unfold Obligations.ExchangeOfPointerAndShadow
  refine fun s => ⟨effect s .ex, rfl, joinNibbles_high_low s.sb, rfl, rfl, ?_⟩
  have hb : (effect s .ex).b = s.sb := joinNibbles_high_low s.sb
  have hhigh : highNibble s.b = s.bm := highNibble_join s.bm s.bl
  have hlow : lowNibble s.b = s.bl := lowNibble_join s.bm s.bl
  change Host.Outcome.next { effect s .ex with bm := highNibble s.b, bl := lowNibble s.b, sb := (effect s .ex).b } = _
  rw [hb, hhigh, hlow]
  rfl

/-! ### Loads from RAM and exchanges with it -/

/-- The step of `BL` up wraps to 0 from 15 alone (spec R135, R154). -/
theorem skip_or_wrapsUp (s : State) :
    (s.skip || (narrow (s.bl.toNat + 1) == 0#4)) = true ↔ s.skip = true ∨ s.bl.toNat = 15 := by
  have hbl := s.bl.isLt
  rw [Bool.or_eq_true, beq_iff_eq, ← BitVec.toNat_inj, narrow_toNat, BitVec.toNat_ofNat]
  exact or_congr_right (by omega)

/-- The step of `BL` down wraps to 15 from 0 alone (spec R136, R155). -/
theorem skip_or_wrapsDown (s : State) :
    (s.skip || (narrow (s.bl.toNat + 15) == 15#4)) = true ↔ s.skip = true ∨ s.bl.toNat = 0 := by
  have hbl := s.bl.isLt
  rw [Bool.or_eq_true, beq_iff_eq, ← BitVec.toNat_inj, narrow_toNat, BitVec.toNat_ofNat]
  exact or_congr_right (by omega)

/-- Settles O41: with the pointer in RAM the load completes, and the exclusive-or stays within the low two bits. -/
theorem loadFromRamReadsTheOldPointer : Obligations.LoadFromRamReadsTheOldPointer := by
  unfold Obligations.LoadFromRamReadsTheOldPointer
  exact fun s m h => ⟨_, exec_ram rfl h, rfl, xorBm_toNat s.bm m, xorBm_lt m h, rfl⟩

/-- Settles O42: with the pointer in RAM the exchange completes, and a write to one cell leaves the others. -/
theorem exchangeSwapsAccumulatorAndCell : Obligations.ExchangeSwapsAccumulatorAndCell := by
  unfold Obligations.ExchangeSwapsAccumulatorAndCell
  exact fun s m h => ⟨_, exec_ram rfl h, rfl, fun b => Mem.read_write s.ram s.b.toNat b s.a, xorBm_toNat s.bm m, rfl⟩

/-- Settles O43: the exchange completes with the pointer in RAM, and the wrap of `BL` alone can set `SKIP`. -/
theorem exchangeAndStepSkipsOnWrap : Obligations.ExchangeAndStepSkipsOnWrap := by
  unfold Obligations.ExchangeAndStepSkipsOnWrap
  intro s m h
  have hcells := fun b => Mem.read_write s.ram s.b.toNat b s.a
  exact ⟨⟨_, exec_ram rfl h, rfl, hcells, narrow_toNat _, skip_or_wrapsUp s, xorBm_toNat s.bm m, rfl⟩,
    ⟨_, exec_ram rfl h, rfl, hcells, narrow_toNat _, skip_or_wrapsDown s, xorBm_toNat s.bm m, rfl⟩⟩

end Sys2Proof.Machine
end

section
/-! Arithmetic and bit instructions on RAM, and the steps of `BL` (spec R151 to R159). -/

namespace Sys2Proof.Machine

/-- Settles O46: with the pointer in RAM the sum is written modulo 16. -/
theorem addFromRamTouchesNoFlag : Obligations.AddFromRamTouchesNoFlag := by
  unfold Obligations.AddFromRamTouchesNoFlag
  exact fun s h => ⟨_, exec_ram rfl h, narrow_toNat _, rfl⟩

/-- A sum below 32 is its carry out and its low four bits (spec R27, R163). -/
theorem overflows_narrow {n : Nat} (h : n < 32) : 16 * (overflows n).toNat + (narrow n).toNat = n := by
  rw [narrow_toNat]
  by_cases hcarry : 16 ≤ n <;> simp only [overflows, hcarry, decide_true, decide_false, Bool.toNat_true, Bool.toNat_false] <;>
    omega

theorem adcSum_lt (a v : Nibble) (c : Bool) : adcSum a v c < 32 := by
  have := a.isLt
  have := v.isLt
  have := c.toNat_le
  simp only [adcSum]
  omega

/-- Settles O47: two nibbles and a carry add up to less than 32, so `C` and `A` hold the sum exactly. -/
theorem addWithCarrySplitsTheExactSum : Obligations.AddWithCarrySplitsTheExactSum := by
  unfold Obligations.AddWithCarrySplitsTheExactSum
  exact fun s h => ⟨_, exec_ram rfl h, overflows_narrow (adcSum_lt s.a s.cell s.c), rfl, rfl⟩

theorem exec_incb (s : State) : exec .incb s = .next (effect s .incb) := exec_of_noFault rfl

theorem exec_decb (s : State) : exec .decb s = .next (effect s .decb) := exec_of_noFault rfl

/-- One up and 15 up, or 15 up and one up, is once around. -/
theorem narrow_around {bl : Nibble} {m n : Nat} (h : m + n = 16) : narrow ((narrow (bl.toNat + m)).toNat + n) = bl := by
  apply BitVec.eq_of_toNat_eq
  have := bl.isLt
  rw [narrow_toNat, narrow_toNat]
  omega

/-- Settles O49: both steps are additions modulo 16, by 1 and by 15, and either skips on the one value it wraps from. -/
theorem stepsOfBlSkipOnTheirWrap : Obligations.StepsOfBlSkipOnTheirWrap := by
  unfold Obligations.StepsOfBlSkipOnTheirWrap
  exact fun s => ⟨⟨_, exec_incb s, narrow_toNat _, skip_or_wrapsUp s, rfl, _, exec_decb _, narrow_around rfl⟩,
    ⟨_, exec_decb s, narrow_toNat _, skip_or_wrapsDown s, rfl, _, exec_incb _, narrow_around rfl⟩⟩

theorem testBit_eq_decide (v : Nibble) (k : BitVec 2) : testBit v k = decide (v.toNat / 2 ^ k.toNat % 2 = 1) := by
  rw [testBit, BitVec.getLsbD, Nat.testBit_eq_decide_div_mod_eq]

/-- Settles O51: with the pointer in RAM the tested bit is the digit of weight `2 ^ k`. -/
theorem ramBitTestSetsOnlySkip : Obligations.RamBitTestSetsOnlySkip := by
  unfold Obligations.RamBitTestSetsOnlySkip
  intro s k h
  rw [← testBit_eq_decide]
  exact exec_ram rfl h

theorem getLsbD_clearBit (v : Nibble) (k : BitVec 2) :
    ∀ j < 4, (clearBit v k).getLsbD j = if j = k.toNat then false else v.getLsbD j := by
  revert v k
  decide

/-- Settles O52: with the pointer in RAM the cleared cell is written back, and a write to one cell leaves the others. -/
theorem ramBitResetClearsOneBit : Obligations.RamBitResetClearsOneBit := by
  unfold Obligations.RamBitResetClearsOneBit
  intro s k h
  have hread := fun b => Mem.read_write s.ram s.b.toNat b (clearBit s.cell k)
  refine ⟨_, exec_ram rfl h, fun j hj => ?_, fun b hb => (hread b).trans (if_neg hb), rfl⟩
  rw [show Mem.read (effect s (.rm k)).ram s.b.toNat = clearBit s.cell k from (hread _).trans (if_pos rfl)]
  exact getLsbD_clearBit s.cell k j hj

end Sys2Proof.Machine
end

section
/-! Ports, the table read and the secret lookup (spec R170 to R174, R198 to R200). -/

namespace Sys2Proof.Machine

theorem bne_zero_eq_decide (v : Nibble) : (v != 0#4) = decide (v.toNat ≠ 0) := by
  revert v
  decide

/-! ### `TPB` -/

theorem exec_tpb1 (s : State) : exec (.tpb 1) s = .next { s with
    port1 := s.port1Level, skip := s.skip || decide (s.port1Level.toNat ≠ 0)
    events := s.events ++ [.portTest 1 s.port1Level] } := by
  rw [exec_tpb s (by decide), ← bne_zero_eq_decide]
  rfl

theorem exec_tpb2 (s : State) : exec (.tpb 2) s = .next { s with
    skip := s.skip || decide (s.port2.toNat ≠ 0), events := s.events ++ [.portTest 2 s.port2] } := by
  rw [exec_tpb s (by decide), ← bne_zero_eq_decide]
  rfl

/-- Settles O55: three indices have a port, and the fourth raises. -/
theorem portTestByIndex : Obligations.PortTestByIndex := by
  unfold Obligations.PortTestByIndex
  exact fun s => ⟨rfl, ⟨_, _, exec_tpb1 s, rfl, rfl⟩, exec_tpb2 s, rfl⟩

theorem port1Level_toggle {s : State} (h : s.cfg.samples = none) :
    s.port1Level = if s.port1 = 0#4 then 1#4 else 0#4 := by
  rw [State.port1Level, h]

/-- Settles O56: without a table the level is the toggle of the stored one, which is 0 or 1 after the first read. -/
theorem toggleReadsAlternate : Obligations.ToggleReadsAlternate := by
  unfold Obligations.ToggleReadsAlternate
  intro s t u hs h hport hcfg
  rw [exec_tpb1 s] at h
  cases h
  have hu : u.cfg.samples = none := by rw [hcfg]; exact hs
  have hread := port1Level_toggle hs
  have hreread := port1Level_toggle hu
  change u.port1 = s.port1Level at hport
  by_cases hzero : s.port1 = 0#4
  · rw [if_pos hzero] at hread
    rw [hport, hread] at hreread
    exact ⟨by simp [hread], fun _ => hread, fun hne => absurd hzero hne, _, exec_tpb1 u, by simp [hread, hreread]⟩
  · rw [if_neg hzero] at hread
    rw [hport, hread] at hreread
    exact ⟨by simp [hread], fun heq => absurd heq hzero, fun _ => hread, _, exec_tpb1 u, by simp [hread, hreread]⟩

theorem sampleLevel_append (pre : Nibble) (before after : List Sample) (c : Nat) :
    sampleLevel pre (before ++ after) c = sampleLevel (sampleLevel pre before c) after c := by
  induction before generalizing pre with
  | nil => rfl
  | cons e rest ih => exact ih _

/-- Samples still to come do not count (spec R200). -/
theorem sampleLevel_of_late {pre : Nibble} {table : List Sample} {c : Nat} (h : ∀ x ∈ table, c < x.ts) :
    sampleLevel pre table c = pre := by
  induction table generalizing pre with
  | nil => rfl
  | cons e rest ih =>
    obtain ⟨he, hrest⟩ := List.forall_mem_cons.mp h
    rw [sampleLevel, if_neg (by omega), ih hrest]

/-- The last sample in list order that is not still to come decides (spec R200). -/
theorem sampleLevel_of_last {pre : Nibble} {before after : List Sample} {e : Sample} {c : Nat} (he : e.ts ≤ c)
    (hafter : ∀ x ∈ after, c < x.ts) : sampleLevel pre (before ++ e :: after) c = e.level := by
  rw [sampleLevel_append, sampleLevel, if_pos he, sampleLevel_of_late hafter]

theorem port1Level_sample {s : State} {table : List Sample} (h : s.cfg.samples = some table) :
    s.port1Level = sampleLevel s.cfg.p1PreLevel table s.cyc := by
  rw [State.port1Level, h]

/-- Settles O57: the search through the table ends with its last qualifying entry, or with the level it started from. -/
theorem sampleReadTakesTheLastQualifyingEntry : Obligations.SampleReadTakesTheLastQualifyingEntry := by
  unfold Obligations.SampleReadTakesTheLastQualifyingEntry
  intro s before after e table htable
  have hlevel := port1Level_sample htable
  constructor
  · rintro rfl he hafter
    rw [exec_tpb1, hlevel, sampleLevel_of_last he hafter]
  · intro hlate
    rw [exec_tpb1, hlevel, sampleLevel_of_late hlate]

/-! ### Outputs -/

/-- A nibble is known by its value. -/
theorem eq_ofNat_iff {v : Nibble} {n : Nat} (hn : n < 16) : v = BitVec.ofNat 4 n ↔ v.toNat = n := by
  rw [← BitVec.toNat_inj, BitVec.toNat_ofNat, Nat.mod_eq_of_lt hn]

theorem exec_out_latch {s : State} (h : s.bl = 15#4) :
    exec .out s = .next { s with hiz := s.a == 0#4, events := s.events ++ [.outHiz (s.a == 0#4)] } := if_pos h

theorem exec_out_port2 {s : State} (h : s.bl = 2#4) :
    exec .out s = .next { s with port2 := s.a, events := s.events ++ [.outPort s.a] } :=
  (if_neg (by rw [h]; decide)).trans (if_pos h)

theorem exec_out_other {s : State} (h15 : s.bl ≠ 15#4) (h2 : s.bl ≠ 2#4) :
    exec .out s = .next { s with events := s.events ++ [.outOther s.bl s.a] } := (if_neg h15).trans (if_neg h2)

/-- Settles O58: `BL` selects one of three writes, and the pin looks at the latch first. -/
theorem outputsBySelector : Obligations.OutputsBySelector := by
  unfold Obligations.OutputsBySelector
  intro s
  have h15 : s.bl = 15#4 ↔ s.bl.toNat = 15 := eq_ofNat_iff (by omega)
  have h2 : s.bl = 2#4 ↔ s.bl.toNat = 2 := eq_ofNat_iff (by omega)
  have hzero : (s.a == 0#4) = decide (s.a.toNat = 0) := decide_eq_decide.mpr (eq_ofNat_iff (by omega))
  refine ⟨rfl, fun hbl => ?_, fun hbl => ?_, fun hne15 hne2 => ?_⟩
  · have hout := exec_out_latch (h15.mpr hbl)
    rw [hzero] at hout
    exact ⟨_, _, rfl, hout, rfl, by simp [State.pin2]⟩
  · exact ⟨_, exec_out_port2 (h2.mpr hbl), rfl, rfl⟩
  · exact exec_out_other (mt h15.mp hne15) (mt h2.mp hne2)

/-! ### The table read and the secret table -/

theorem patLocation_eq (x a : Nibble) : patLocation x a = ⟨4, BitVec.ofNat 6 (16 * (x.toNat % 4) + a.toNat)⟩ := by
  revert x a
  decide

/-- Settles O59: the place `PAT` reads has this number, and a byte is its two halves. -/
theorem tableReadSplitsTheByte : Obligations.TableReadSplitsTheByte := by
  unfold Obligations.TableReadSplitsTheByte
  refine fun s x => ⟨effect s (.pat x), s.romRead (patLocation s.x s.a), rfl, by rw [patLocation_eq], ?_, rfl⟩
  simp only [effect, highNibble_toNat, lowNibble_toNat]
  omega

theorem secretSelected_iff (bm : Nibble) : secretSelected bm = true ↔ 4 ≤ bm.toNat ∧ bm.toNat ≤ 7 := decide_eq_true_iff

/-- The 64 bits of a table of secret bits, in the model's numbering (log 5). -/
def packSecret (f : Nibble → Nibble → Bool) : BitVec 64 :=
  BitVec.ofFnLE fun i => f (BitVec.ofNat 4 (i.val / 16 + 4)) (BitVec.ofNat 4 (i.val % 16))

theorem secretBit_packSecret (f : Nibble → Nibble → Bool) (cfg : Config) {bm bl : Nibble} (hlow : 4 ≤ bm.toNat)
    (hhigh : bm.toNat ≤ 7) : secretBit { cfg with secret := packSecret f } bm bl = f bm bl := by
  have hbl := bl.isLt
  have hrow : BitVec.ofNat 4 ((16 * (bm.toNat - 4) + bl.toNat) / 16 + 4) = bm :=
    ((eq_ofNat_iff (by omega)).mpr (by omega)).symm
  have hcol : BitVec.ofNat 4 ((16 * (bm.toNat - 4) + bl.toNat) % 16) = bl :=
    ((eq_ofNat_iff (by omega)).mpr (by omega)).symm
  rw [secretBit, packSecret, BitVec.getLsbD_ofFnLE, dif_pos (by omega), hrow, hcol]

/-- Settles O60: `DTA` writes `SKIP` under its one condition, and the bits of any table can be packed in the 64 bits. -/
theorem secretBitTest : Obligations.SecretBitTest := by
  unfold Obligations.SecretBitTest
  refine ⟨fun s x => ⟨fun hlow hhigh => ?_, fun hout => ?_⟩,
    fun f cfg => ⟨packSecret f, fun bm bl => secretBit_packSecret f cfg⟩⟩
  · exact if_pos ((secretSelected_iff s.bm).mpr ⟨hlow, hhigh⟩)
  · exact if_neg fun h => by have := (secretSelected_iff s.bm).mp h; omega

end Sys2Proof.Machine
end
